-- ==== Sys2Proof/Word.lean ====
section
/-! DEFINITION. The word types of KBDCORE.

Every value of KBDCORE is an unsigned integer of a stated width or a boolean (00_scope.md R9). A value whose width the
spec fixes is a bit vector. A value whose width is a parameter (a timestamp, a queue element, a counter, R6) is a
natural number, whose bound the encoding checks or the invariant of Safety.lean states. -/

namespace Sys2Proof

/-- A byte is 8 bits (00_scope.md R8). -/
abbrev Byte := BitVec 8

/-- A snapshot: bit i is cell i, for i < NUM_CELLS (10_state.md R39). NUM_CELLS is at most 32 (00_scope.md R7), and the
bits at and above NUM_CELLS are 0 wherever the model stores one. -/
abbrev Snapshot := BitVec 32

end Sys2Proof
end

