-- ==== Sys2Proof/Config.lean ====
section
/-! DEFINITION. The implementation parameters of 00_scope.md R6.

A model takes each parameter as an argument (R6). Here that argument is the field `cfg` of State, so that a statement
about every state is a statement about every configuration. Which configurations have a meaning (R7) is `configOk` in
Machine/Ops.lean. -/

namespace Sys2Proof

/-- The parameters of 00_scope.md R6. NUM_CELLS and NUM_BUTTONS follow from NUM_ROWS and NUM_COLS. -/
structure Config where
  /-- NUM_ROWS -/
  numRows : Nat
  /-- NUM_COLS -/
  numCols : Nat
  /-- MAX_CHANGES, the bound on the change list of one RX cycle -/
  maxChanges : Nat
  /-- TS_BITS, the width of a timestamp -/
  tsBits : Nat
  /-- TICK, the duration of one timestamp unit, in nanoseconds. No rule computes with it: WINDOW is in ticks. -/
  tickNs : Nat
  /-- WINDOW, the dead-time window in ticks -/
  window : Nat
  /-- N, the slot count of Q -/
  qSlots : Nat
  /-- W, the width of a Q element in bits -/
  qWidth : Nat
  /-- TXCAP, the bytes of TXB -/
  txCap : Nat
  /-- RXCAP, the bytes of RXB -/
  rxCap : Nat
  /-- CNT_BITS, the width of each RX counter -/
  cntBits : Nat
  deriving DecidableEq, Repr

/-- NUM_CELLS = NUM_ROWS·NUM_COLS (00_scope.md R6). -/
def Config.numCells (c : Config) : Nat := c.numRows * c.numCols

/-- NUM_BUTTONS = NUM_CELLS (00_scope.md R6). -/
def Config.numButtons (c : Config) : Nat := c.numCells

/-- The values 00_scope.md R6 fixes. DESIGN CHOICE for the four OPEN ones (N, W, TXCAP, RXCAP): the values the spec's
test vectors use (log 1). -/
def Config.standard : Config where
  numRows := 5
  numCols := 6
  maxChanges := 16
  tsBits := 64
  tickNs := 1000
  window := 10000
  qSlots := 8
  qWidth := 32
  txCap := 8
  rxCap := 8
  cntBits := 32

/-- TAG_MATRIX (00_scope.md R6). The tags and the index limit stay fixed, because the encodings depend on them
(92_eei_decisions.md D41, 93_implementation_defined.md U14; log 15). -/
def tagMatrix : Byte := 0xFF#8

/-- TAG_ENCODER (00_scope.md R6). -/
def tagEncoder : Byte := 0xFE#8

/-- CODEC_MAX_INDEX, the largest key index the codec takes (00_scope.md R6). -/
def codecMaxIndex : Nat := 30

end Sys2Proof
end

