-- ==== Sys2Proof/Syntax.lean ====
section
/-! DEFINITION. The instructions: one constructor for each row of spec/opcode_table.json.

The table has four formats (30_encoding.md, opening; R81 to R93). The rows of format OPSEL are the thirteen commands.
The rows of the other three are the data patterns that CODEC_DECODE and RX_CYCLE decode; such a constructor stands for
"the unit meets this pattern", and its operands are the bits of the pattern that the row does not fix (log 8). -/

namespace Sys2Proof

/-- The four formats of the opcode table. -/
inductive Format where
  /-- a command word -/
  | opsel
  /-- a codec byte -/
  | codecByte
  /-- a wire frame, by its tag byte -/
  | wireTag
  /-- the direction byte of an encoder frame -/
  | wireEncPayload
  deriving DecidableEq, Repr

/-- The thirteen command codes of 30_encoding.md R82. -/
inductive Opsel where
  | codecEnckey | codecEncenc | codecDecode
  | dbSubmit | dbRelease
  | txMatrix | txEncoder | txPump
  | rxCycle
  | qPush | qPop | qPeek | qAvail
  deriving DecidableEq, Repr

/-- The rows of spec/opcode_table.json. Operand names are those of 30_encoding.md R83 and R86. -/
inductive Instr where
  /-- CODEC_ENCKEY (R121): IDX, PR -/
  | codecEnckey (idx : Byte) (pr : Bool)
  /-- CODEC_ENCENC (R122): CW -/
  | codecEncenc (cw : Bool)
  /-- CODEC_DECODE (R123): BYTE -/
  | codecDecode (x : Byte)
  /-- DB_SUBMIT (R141): B, S, NOW -/
  | dbSubmit (b : Byte) (st : Bool) (now : Nat)
  /-- DB_RELEASE (R146): B, NOW -/
  | dbRelease (b : Byte) (now : Nat)
  /-- TX_MATRIX (R172): SNAP -/
  | txMatrix (snap : BitVec 32)
  /-- TX_ENCODER (R173): CW -/
  | txEncoder (cw : Bool)
  /-- TX_PUMP (R174) -/
  | txPump
  /-- RX_CYCLE (R191) -/
  | rxCycle
  /-- Q_PUSH (R221): V -/
  | qPush (v : Nat)
  /-- Q_POP (R222) -/
  | qPop
  /-- Q_PEEK (R223) -/
  | qPeek
  /-- Q_AVAIL (R224) -/
  | qAvail
  /-- CODEC_ENCODER_CW: a codec byte with bits 7 and 6 set; `low` is its ignored bits [5:0] (R87 case 1) -/
  | codecEncoderCw (low : BitVec 6)
  /-- CODEC_ENCODER_CCW: a codec byte with bit 6 set and bit 7 clear (R87 case 1) -/
  | codecEncoderCcw (low : BitVec 6)
  /-- CODEC_ILLEGAL: bit 6 clear and index 31; bits 7 and 5 are ignored (R87 case 2, R88) -/
  | codecIllegal (bit7 bit5 : Bool)
  /-- CODEC_KEY: bit 6 clear and index 0 to 30; bit 7 is ignored (R87 case 3) -/
  | codecKey (bit7 pr : Bool) (idx : BitVec 5)
  /-- WIRE_MATRIX_FRAME: tag 0xFF and the 32-bit field F of the four payload bytes (R90, R195) -/
  | wireMatrixFrame (f : BitVec 32)
  /-- WIRE_ENCODER_FRAME: tag 0xFE and the direction byte d (R91, R196) -/
  | wireEncoderFrame (d : Byte)
  /-- WIRE_UNRECOGNIZED_TAG: any other byte at frame start (R92, R197) -/
  | wireUnrecognizedTag (tag : Byte)
  /-- WIRE_DIR_CW: direction byte 0x00 (R91, R196) -/
  | wireDirCw
  /-- WIRE_DIR_CCW: direction byte 0x01 (R91, R196) -/
  | wireDirCcw
  /-- WIRE_DIR_MALFORMED: any other direction byte (R93, R196) -/
  | wireDirMalformed (d : Byte)
  deriving DecidableEq, Repr

end Sys2Proof
end

