-- ==== Sys2Proof/WellFormed.lean ====
section
/-! DEFINITION. Which instruction terms stand for an encoding.

The types of the operands already bound every operand whose width the spec fixes. What is left: the operands whose
width is a parameter (30_encoding.md R83, R96), and the operand values that another row of the same format takes
(the `priority` of a data pattern: R87, R92, R93). -/

namespace Sys2Proof

/-- The operands fit their fields, and a data pattern is not one that a row of lower priority number takes. -/
def Instr.wellFormed (cfg : Config) : Instr → Bool
  | .codecEnckey _ _ => true
  | .codecEncenc _ => true
  | .codecDecode _ => true
  | .dbSubmit _ _ now => decide (now < 2 ^ cfg.tsBits)
  | .dbRelease _ now => decide (now < 2 ^ cfg.tsBits)
  | .txMatrix _ => true
  | .txEncoder _ => true
  | .txPump => true
  | .rxCycle => true
  | .qPush v => decide (v < 2 ^ cfg.qWidth)
  | .qPop => true
  | .qPeek => true
  | .qAvail => true
  | .codecEncoderCw _ => true
  | .codecEncoderCcw _ => true
  | .codecIllegal _ _ => true
  | .codecKey _ _ idx => idx != 31#5
  | .wireMatrixFrame _ => true
  | .wireEncoderFrame _ => true
  | .wireUnrecognizedTag tag => tag != tagMatrix && tag != tagEncoder
  | .wireDirCw => true
  | .wireDirCcw => true
  | .wireDirMalformed d => d != 0x00#8 && d != 0x01#8

end Sys2Proof
end

