-- ==== Sys2Proof/Decode.lean ====
section
/-! DEFINITION. The decoders of the four formats, and after them the encoder (30_encoding.md R81 to R93).

A command word is an unsigned integer, as the spec's vectors write it: OPSEL is bits [7:0], and the operands follow from
bit 8 upward, each least-significant bit first (R81). A decoder tells the length of a command word from OPSEL alone
(R81), so a bit at or above that length is in no field and is not looked at (log 9). -/

namespace Sys2Proof

/-! ### Bit fields (00_scope.md R8) -/

/-- Bits [lo+n−1 : lo] of a word, as a bit vector of width n. -/
def fieldBits (w lo n : Nat) : BitVec n := BitVec.ofNat n (w >>> lo)

/-- Bits [lo+n−1 : lo] of a word, as an unsigned number: a field whose width n is a parameter. -/
def fieldNat (w lo n : Nat) : Nat := (w >>> lo) % 2 ^ n

/-- Bit i of a word. -/
def fieldBit (w i : Nat) : Bool := w.testBit i

/-! ### The command word -/

/-- The OPSEL values of 30_encoding.md R82: UNIT in bits [7:4], OP in bits [3:0] (R81). -/
def Opsel.code : Opsel → Byte
  | .codecEnckey => 0x00#8
  | .codecEncenc => 0x01#8
  | .codecDecode => 0x02#8
  | .dbSubmit => 0x10#8
  | .dbRelease => 0x11#8
  | .txMatrix => 0x20#8
  | .txEncoder => 0x21#8
  | .txPump => 0x22#8
  | .rxCycle => 0x30#8
  | .qPush => 0x40#8
  | .qPop => 0x41#8
  | .qPeek => 0x42#8
  | .qAvail => 0x43#8

/-- The complete command set (30_encoding.md R82). -/
def Opsel.all : List Opsel :=
  [.codecEnckey, .codecEncenc, .codecDecode, .dbSubmit, .dbRelease, .txMatrix, .txEncoder, .txPump, .rxCycle,
   .qPush, .qPop, .qPeek, .qAvail]

/-- The command an OPSEL value selects; none for a reserved value (30_encoding.md R85). -/
def Opsel.ofCode (c : Byte) : Option Opsel := Opsel.all.find? (fun o => o.code == c)

/-- Why a word decodes to no command. -/
inductive DecodeError where
  /-- OPSEL is not in the table of R82 (30_encoding.md R85) -/
  | reservedOpsel (code : Byte)
  deriving DecidableEq, Repr

/-- The operand fields of each command (30_encoding.md R83). -/
def decodeOperands (cfg : Config) (w : Nat) : Opsel → Instr
  | .codecEnckey => .codecEnckey (fieldBits w 8 8) (fieldBit w 16)
  | .codecEncenc => .codecEncenc (fieldBit w 8)
  | .codecDecode => .codecDecode (fieldBits w 8 8)
  | .dbSubmit => .dbSubmit (fieldBits w 8 8) (fieldBit w 16) (fieldNat w 17 cfg.tsBits)
  | .dbRelease => .dbRelease (fieldBits w 8 8) (fieldNat w 16 cfg.tsBits)
  | .txMatrix => .txMatrix (fieldBits w 8 32)
  | .txEncoder => .txEncoder (fieldBit w 8)
  | .txPump => .txPump
  | .rxCycle => .rxCycle
  | .qPush => .qPush (fieldNat w 8 cfg.qWidth)
  | .qPop => .qPop
  | .qPeek => .qPeek
  | .qAvail => .qAvail

/-- The command a word stands for, or the name of the reason why it stands for none. -/
def decode (cfg : Config) (w : Nat) : Except DecodeError Instr :=
  match Opsel.ofCode (fieldBits w 0 8) with
  | some o => .ok (decodeOperands cfg w o)
  | none => .error (.reservedOpsel (fieldBits w 0 8))

/-! ### The codec byte -/

/-- The classification of a codec byte (30_encoding.md R87): the marker first, then the reserved index. -/
def decodeCodecByte (x : Byte) : Instr :=
  if x.getLsbD 6 then
    if x.getLsbD 7 then .codecEncoderCw (x.extractLsb' 0 6) else .codecEncoderCcw (x.extractLsb' 0 6)
  else if x.extractLsb' 0 5 = 31#5 then .codecIllegal (x.getLsbD 7) (x.getLsbD 5)
  else .codecKey (x.getLsbD 7) (x.getLsbD 5) (x.extractLsb' 0 5)

/-! ### The wire frames -/

/-- The classification of a frame by its tag byte (30_encoding.md R90 to R94, 43_link_rx.md R193). Byte j of the frame is
bits [8j+7 : 8j] of `w`, so the payload of a matrix frame is bits [39:8], little-endian (20_memory.md R51). -/
def decodeWireFrame (w : Nat) : Instr :=
  if fieldBits w 0 8 = tagMatrix then .wireMatrixFrame (fieldBits w 8 32)
  else if fieldBits w 0 8 = tagEncoder then .wireEncoderFrame (fieldBits w 8 8)
  else .wireUnrecognizedTag (fieldBits w 0 8)

/-- The classification of an encoder frame's direction byte (30_encoding.md R91, R93). -/
def decodeWireDir (d : Byte) : Instr :=
  if d = 0x00#8 then .wireDirCw else if d = 0x01#8 then .wireDirCcw else .wireDirMalformed d

/-- The decoder of each format. Only a command word can be rejected: the other three formats give every pattern a row. -/
def decodeAs (fmt : Format) (cfg : Config) (w : Nat) : Except DecodeError Instr :=
  match fmt with
  | .opsel => decode cfg w
  | .codecByte => .ok (decodeCodecByte (fieldBits w 0 8))
  | .wireTag => .ok (decodeWireFrame w)
  | .wireEncPayload => .ok (decodeWireDir (fieldBits w 0 8))

/-! ### The encoder -/

/-- The format of each row. -/
def Instr.format : Instr → Format
  | .codecEnckey _ _ => .opsel
  | .codecEncenc _ => .opsel
  | .codecDecode _ => .opsel
  | .dbSubmit _ _ _ => .opsel
  | .dbRelease _ _ => .opsel
  | .txMatrix _ => .opsel
  | .txEncoder _ => .opsel
  | .txPump => .opsel
  | .rxCycle => .opsel
  | .qPush _ => .opsel
  | .qPop => .opsel
  | .qPeek => .opsel
  | .qAvail => .opsel
  | .codecEncoderCw _ => .codecByte
  | .codecEncoderCcw _ => .codecByte
  | .codecIllegal _ _ => .codecByte
  | .codecKey _ _ _ => .codecByte
  | .wireMatrixFrame _ => .wireTag
  | .wireEncoderFrame _ => .wireTag
  | .wireUnrecognizedTag _ => .wireTag
  | .wireDirCw => .wireEncPayload
  | .wireDirCcw => .wireEncPayload
  | .wireDirMalformed _ => .wireEncPayload

/-- The length in bits of each row's word (30_encoding.md R83, R86, R94). -/
def Instr.wordBits (cfg : Config) : Instr → Nat
  | .codecEnckey _ _ => 17
  | .codecEncenc _ => 9
  | .codecDecode _ => 16
  | .dbSubmit _ _ _ => 17 + cfg.tsBits
  | .dbRelease _ _ => 16 + cfg.tsBits
  | .txMatrix _ => 40
  | .txEncoder _ => 9
  | .txPump => 8
  | .rxCycle => 8
  | .qPush _ => 8 + cfg.qWidth
  | .qPop => 8
  | .qPeek => 8
  | .qAvail => 8
  | .codecEncoderCw _ => 8
  | .codecEncoderCcw _ => 8
  | .codecIllegal _ _ => 8
  | .codecKey _ _ _ => 8
  | .wireMatrixFrame _ => 40
  | .wireEncoderFrame _ => 16
  | .wireUnrecognizedTag _ => 8
  | .wireDirCw => 8
  | .wireDirCcw => 8
  | .wireDirMalformed _ => 8

/-- The word of each instruction: for a command the command word (30_encoding.md R82, R83), for a data pattern its
byte or bytes, the first byte in bits [7:0] (R86, R89 to R91). -/
def Instr.encode : Instr → Nat
  | .codecEnckey idx pr => 0x00 + idx.toNat * 2 ^ 8 + pr.toNat * 2 ^ 16
  | .codecEncenc cw => 0x01 + cw.toNat * 2 ^ 8
  | .codecDecode x => 0x02 + x.toNat * 2 ^ 8
  | .dbSubmit b st now => 0x10 + b.toNat * 2 ^ 8 + st.toNat * 2 ^ 16 + now * 2 ^ 17
  | .dbRelease b now => 0x11 + b.toNat * 2 ^ 8 + now * 2 ^ 16
  | .txMatrix snap => 0x20 + snap.toNat * 2 ^ 8
  | .txEncoder cw => 0x21 + cw.toNat * 2 ^ 8
  | .txPump => 0x22
  | .rxCycle => 0x30
  | .qPush v => 0x40 + v * 2 ^ 8
  | .qPop => 0x41
  | .qPeek => 0x42
  | .qAvail => 0x43
  | .codecEncoderCw low => 0xC0 + low.toNat
  | .codecEncoderCcw low => 0x40 + low.toNat
  | .codecIllegal bit7 bit5 => 0x1F + bit5.toNat * 2 ^ 5 + bit7.toNat * 2 ^ 7
  | .codecKey bit7 pr idx => idx.toNat + pr.toNat * 2 ^ 5 + bit7.toNat * 2 ^ 7
  | .wireMatrixFrame f => 0xFF + f.toNat * 2 ^ 8
  | .wireEncoderFrame d => 0xFE + d.toNat * 2 ^ 8
  | .wireUnrecognizedTag tag => tag.toNat
  | .wireDirCw => 0x00
  | .wireDirCcw => 0x01
  | .wireDirMalformed d => d.toNat

/-! ### The host's view of the decoder -/

/-- The command the decoder reads from a table word (bits at and above `nbits` are 0), for the configuration of
`State.reset`. A data-pattern row has no command code, so its word is read as the command word it would be, or refused
as a reserved OPSEL (30_encoding.md R85; log 8). -/
def decodeTableWord (nbits w : Nat) : Option Instr :=
  match decode Config.standard (w % 2 ^ nbits) with
  | .ok i => some i
  | .error _ => none

end Sys2Proof
end

