-- ==== Sys2Proof/Machine/State.lean ====
section
/-! DEFINITION. The state of KBDCORE (10_state.md), the inputs a step reads, and the reasons a step can stop. -/

namespace Sys2Proof.Machine

/-! ### Agents and their answers -/

/-- The two execution contexts, CTX-A and CTX-B (00_scope.md R3, 60_exceptions.md R266). -/
inductive Ctx where
  | a
  | b
  deriving DecidableEq, Repr

/-- The context that is not this one. -/
def Ctx.other : Ctx → Ctx
  | .a => .b
  | .b => .a

/-- What SINK answers a pump (42_link_tx.md R175). -/
inductive SinkAnswer where
  /-- SINK took the first n offered bytes -/
  | written (n : Nat)
  /-- SINK took nothing -/
  | wouldBlock
  /-- SINK took nothing and reports an error -/
  | error
  deriving DecidableEq, Repr

/-- What SOURCE answers a receive cycle (43_link_rx.md R192). -/
inductive SourceAnswer where
  /-- the next bytes of the incoming stream; n is their number -/
  | read (bytes : List Byte)
  | wouldBlock
  | error
  deriving DecidableEq, Repr

/-- Who issued a command, and the draws it finds (00_scope.md R13). A draw is a free input: a command that does not ask
for one does not look at it. `view` is the other port's cursor as a Q command sees it (20_memory.md R57); none is the
current cursor, as in the notation of 30_encoding.md R98 (log 2, log 3). -/
structure Port where
  ctx : Ctx
  sink : SinkAnswer
  source : SourceAnswer
  view : Option Nat
  deriving DecidableEq, Repr

/-- A command as a context issues it: its word (30_encoding.md R81) and its port. -/
structure Command where
  word : Nat
  port : Port
  deriving DecidableEq, Repr

/-- The five units (00_scope.md R2). -/
inductive UnitId where
  | codec
  | db
  | tx
  | rx
  | q
  deriving DecidableEq, Repr

/-- Which ports of Q a context holds in use when a construction comes (70_reset_and_hazards.md R283). The spec does not say
when a port is in use, so this is a free input of the construction, as a draw is of a command (log 11). -/
structure PortUse where
  producer : Bool
  consumer : Bool
  deriving DecidableEq, Repr

/-- What the outside world does to the block, one thing a step (10_state.md R22, 60_exceptions.md R263, R268). -/
inductive Stimulus where
  /-- a context issues a command -/
  | command (c : Command)
  /-- one unit is constructed again; only a construction of Q looks at the ports (70_reset_and_hazards.md R281, R283) -/
  | construct (u : UnitId) (ports : PortUse)
  /-- power-up: all five units are constructed (60_exceptions.md R268) -/
  | powerUp
  deriving DecidableEq, Repr

/-! ### Result records -/

/-- The status values of 60_exceptions.md R251. -/
inductive Status where
  | ok
  | full
  | empty
  | badIndex
  | illegal
  | wouldBlock
  | sinkError
  | range
  deriving DecidableEq, Repr

/-- A ButtonStateChange (10_state.md R40). -/
structure Change where
  row : Nat
  col : Nat
  newState : Bool
  deriving DecidableEq, Repr

/-- The fields of a result record beside its status (30_encoding.md R84). -/
inductive Output where
  /-- no further field -/
  | none
  /-- CODEC_ENCKEY, CODEC_ENCENC: `byte` -/
  | byte (x : Byte)
  /-- kind KEY of CODEC_DECODE -/
  | key (index : BitVec 5) (pressed : Bool)
  /-- kind ENCODER of CODEC_DECODE and of RX_CYCLE -/
  | encoder (cw : Bool)
  /-- verdict ACCEPT of DB_SUBMIT and DB_RELEASE -/
  | accept (state : Bool)
  /-- verdict REJECT of DB_SUBMIT -/
  | reject
  /-- verdict NONE of DB_RELEASE -/
  | noVerdict
  /-- TX_PUMP: the bytes sent and the sink's health -/
  | pumped (n : Nat) (healthy : Bool)
  /-- kind NOTHING of RX_CYCLE -/
  | nothing
  /-- kind MATRIX of RX_CYCLE -/
  | matrix (m : Snapshot) (changes : List Change)
  /-- Q_POP, Q_PEEK: `v` -/
  | value (v : Nat)
  /-- Q_AVAIL: `count` -/
  | count (n : Nat)
  deriving DecidableEq, Repr

/-- A result record (00_scope.md R11). -/
structure Result where
  status : Status
  output : Output
  deriving DecidableEq, Repr

/-! ### The units' state -/

/-- The record of one button (10_state.md R26). -/
structure DbRecord where
  /-- `la_valid` -/
  laValid : Bool
  /-- `ts`, the window anchor -/
  ts : Nat
  /-- `q_valid` -/
  qValid : Bool
  /-- `q_state` -/
  qState : Bool
  deriving DecidableEq, Repr

/-- TX (10_state.md R29). -/
structure TxUnit where
  /-- TXB -/
  buf : List Byte
  /-- `tx_cur` -/
  cur : Nat
  deriving DecidableEq, Repr

/-- RX (10_state.md R31 to R33). -/
structure RxUnit where
  /-- RXB -/
  buf : List Byte
  /-- `rx_cur` -/
  cur : Nat
  /-- `remote`, the last matrix decoded -/
  remote : Snapshot
  cntBytes : Nat
  cntReads : Nat
  cntMalformed : Nat
  cntResync : Nat
  deriving DecidableEq, Repr

/-- Q (10_state.md R35) with its ghost state (R37). -/
structure QUnit where
  /-- SLOT -/
  slot : List Nat
  /-- HEAD -/
  head : Nat
  /-- TAIL -/
  tail : Nat
  /-- TC, the pushes completed since construction -/
  tc : Nat
  /-- HC, the pops completed since construction -/
  hc : Nat
  /-- `p_seen`, the HC the producer port last observed -/
  pSeen : Nat
  /-- `c_seen`, the TC the consumer port last observed -/
  cSeen : Nat
  deriving DecidableEq, Repr

/-- Which context owns each single-owner unit and drives Q's producer port (20_memory.md R62, 60_exceptions.md R266). -/
structure Binding where
  dbOwner : Ctx
  txOwner : Ctx
  rxOwner : Ctx
  producer : Ctx
  deriving DecidableEq, Repr

/-- Q's consumer port is driven by the other context (10_state.md R36). -/
def Binding.consumer (b : Binding) : Ctx := b.producer.other

/-- The default binding of 60_exceptions.md R266. -/
def Binding.standard : Binding where
  dbOwner := .a
  txOwner := .a
  rxOwner := .a
  producer := .a

/-- The whole machine. The first six fields are the spec's state; `wire` is what SINK has taken so far (42_link_tx.md
R175); `result`, `port` and `pending` are the model's own: the last result record, the inputs of the command being run,
and the stimuli still to come (log 2, log 4, log 7, log 10). -/
structure State where
  cfg : Config
  bind : Binding
  db : List DbRecord
  tx : TxUnit
  rx : RxUnit
  q : QUnit
  wire : List Byte
  result : Option Result
  port : Port
  pending : List Stimulus
  deriving DecidableEq, Repr

/-! ### Why a step can stop -/

/-- KBDCORE has no trap and no fatal outcome (60_exceptions.md R255, R260): nothing raises a fault, and the type of faults
has no constructor. -/
inductive Fault where
  deriving DecidableEq, Repr

/-- The uses that have no meaning (00_scope.md R14, 60_exceptions.md R256). Each is safe: a refused run has no next state,
so nothing can be proved of what the hardware would do. -/
inductive Refusal where
  /-- raised by exec for an instruction that has no meaning yet; no arm does; safe -/
  | notModelled (mnemonic : String)
  /-- R256 item 1: raised by the fetch when the configuration breaks 00_scope.md R7; safe -/
  | badConfiguration
  /-- R256 item 2: raised by the fetch for a reserved OPSEL (30_encoding.md R85); safe -/
  | reservedOpsel (code : Byte)
  /-- R256 item 3: raised by Q_PUSH from a context that does not drive the producer port (10_state.md R36); safe -/
  | notProducer
  /-- R256 item 3: raised by Q_POP, Q_PEEK and Q_AVAIL from a context that does not drive the consumer port (10_state.md
  R36); safe -/
  | notConsumer
  /-- R256 item 4: raised by a DB, TX or RX command from a context other than the unit's owner (20_memory.md R62); safe -/
  | notOwner (u : UnitId)
  /-- R256 item 5: raised by TX_PUMP when SINK claims more bytes than it was offered (42_link_tx.md R175); safe -/
  | sinkContract
  /-- R256 item 5: raised by RX_CYCLE when SOURCE delivers more bytes than there is space (43_link_rx.md R192); safe -/
  | sourceContract
  /-- R256 item 6: raised when Q is constructed again while either of its ports is in use (70_reset_and_hazards.md R283); safe -/
  | qInUse
  deriving DecidableEq, Repr

/-! ### Reset (10_state.md R43, 70_reset_and_hazards.md R281, R283) -/

/-- An idle record. DESIGN CHOICE: `ts` and `q_state`, which the spec leaves unspecified, are 0 (log 5). -/
def DbRecord.idle : DbRecord where
  laValid := false
  ts := 0
  qValid := false
  qState := false

/-- DB constructed: every record idle. -/
def dbConstructed (cfg : Config) : List DbRecord := List.replicate cfg.numButtons DbRecord.idle

/-- TX constructed. DESIGN CHOICE: the bytes of TXB are 0 (log 5). -/
def TxUnit.constructed (cfg : Config) : TxUnit where
  buf := List.replicate cfg.txCap 0#8
  cur := 0

/-- RX constructed: the cursor, `remote` and the counters are 0. DESIGN CHOICE: the bytes of RXB are 0 (log 5). -/
def RxUnit.constructed (cfg : Config) : RxUnit where
  buf := List.replicate cfg.rxCap 0#8
  cur := 0
  remote := 0#32
  cntBytes := 0
  cntReads := 0
  cntMalformed := 0
  cntResync := 0

/-- Q constructed: both cursors and all ghost counters are 0. DESIGN CHOICE: the elements of SLOT are 0 (log 5). -/
def QUnit.constructed (cfg : Config) : QUnit where
  slot := List.replicate cfg.qSlots 0
  head := 0
  tail := 0
  tc := 0
  hc := 0
  pSeen := 0
  cSeen := 0

/-- The port before any command. DESIGN CHOICE: no command reads it, for each command brings its own (log 2). -/
def Port.idle : Port where
  ctx := .a
  sink := .wouldBlock
  source := .wouldBlock
  view := none

/-- The whole block constructed, for any configuration and binding. -/
def State.construct (cfg : Config) (bind : Binding) : State where
  cfg := cfg
  bind := bind
  db := dbConstructed cfg
  tx := TxUnit.constructed cfg
  rx := RxUnit.constructed cfg
  q := QUnit.constructed cfg
  wire := []
  result := none
  port := Port.idle
  pending := []

/-- The block right after reset, in the standard configuration and the default binding (log 1, log 12). -/
def State.reset : State := State.construct Config.standard Binding.standard

end Sys2Proof.Machine
end

