-- ==== Sys2Proof/Machine/Ops.lean ====
section
/-! DEFINITION. The operations every unit shares: arrays, counters, cursor views, completing and refusing a command,
construction, and fetching the next stimulus.

KBDCORE has no trap entry and no trap return (60_exceptions.md R260, R261). What takes their place is `complete`, which
ends a command with a result record, and `whenIssuedBy`, which refuses one from the wrong context. -/

namespace Sys2Proof.Machine

/-- The outcome of a step of this machine. -/
abbrev StepOutcome := Host.Outcome State Fault Refusal

/-! ### Updating one part of the state -/

/-- DB replaced. -/
def State.withDb (s : State) (db : List DbRecord) : State := { s with db := db }

/-- TX replaced. -/
def State.withTx (s : State) (tx : TxUnit) : State := { s with tx := tx }

/-- RX replaced. -/
def State.withRx (s : State) (rx : RxUnit) : State := { s with rx := rx }

/-- Q replaced. -/
def State.withQ (s : State) (q : QUnit) : State := { s with q := q }

/-- SINK has taken more bytes, in order after all it took before (42_link_tx.md R175). -/
def State.sends (s : State) (bytes : List Byte) : State := { s with wire := s.wire ++ bytes }

/-- A result record returned (00_scope.md R11). -/
def State.returns (s : State) (r : Result) : State := { s with result := some r }

/-- A command taken from the front of the stimuli: its port is the one the command's meaning reads. -/
def State.accepts (s : State) (c : Command) (rest : List Stimulus) : State := { s with port := c.port, pending := rest }

/-- The front stimulus dropped. -/
def State.continues (s : State) (rest : List Stimulus) : State := { s with pending := rest }

/-! ### Ending a command -/

/-- The command ends with this result record, in this state. -/
def complete (s : State) (r : Result) : StepOutcome := .next (s.returns r)

/-- The context check, which comes before a command's own checks (60_exceptions.md R257). -/
def whenIssuedBy (owner : Ctx) (r : Refusal) (s : State) (k : StepOutcome) : StepOutcome :=
  if s.port.ctx = owner then k else .refused r

/-! ### Arrays (00_scope.md R10, 20_memory.md R53, R54) -/

/-- MemRead: n consecutive elements from index i, element i first. -/
def memRead {α : Type} (arr : List α) (i n : Nat) : List α := (arr.drop i).take n

/-- MemWrite: consecutive elements from index i, element i first. -/
def memWrite {α : Type} (arr : List α) (i : Nat) : List α → List α
  | [] => arr
  | v :: vs => memWrite (arr.set i v) (i + 1) vs

/-- The loop `for i in 0 .. m-1: BUF[i] <- BUF[i+k]`, ascending (42_link_tx.md R174, 43_link_rx.md R191). -/
def shiftDown (arr : List Byte) (k : Nat) : Nat → List Byte
  | 0 => arr
  | m + 1 => (shiftDown arr k m).set m ((shiftDown arr k m).getD (m + k) 0#8)

/-! ### Counters -/

/-- A counter of the given width grows by n and wraps (10_state.md R33). -/
def wrapAdd (bits a n : Nat) : Nat := (a + n) % 2 ^ bits

/-! ### Cursor views (20_memory.md R57) -/

/-- The value of the other port's counter that a port observes: any value from the one it last saw up to the latest. The
draw k is taken into that range, so every allowed value is some draw and no draw leaves the range (log 3). Without a
draw the view is the current one (30_encoding.md R98). -/
def observe (seen latest : Nat) : Option Nat → Nat
  | none => latest
  | some k => max seen (min k latest)

/-! ### The configuration check (60_exceptions.md R256 item 1) -/

/-- The constraints of 00_scope.md R7, and W ≥ 1 from R6. -/
def configOk (c : Config) : Bool :=
  decide (c.numCells ≤ 32) && decide (1 ≤ c.numRows) && decide (1 ≤ c.numCols) &&
  decide (5 ≤ c.txCap) && decide (5 ≤ c.rxCap) && decide (2 ≤ c.qSlots) && decide (1 ≤ c.qWidth)

/-! ### Construction (70_reset_and_hazards.md R281, R283) -/

/-- Either port of Q is in use (70_reset_and_hazards.md R283). -/
def PortUse.either (ports : PortUse) : Bool := ports.producer || ports.consumer

/-- One unit is constructed: every piece of its state takes its reset value, and no other unit is touched. CODEC has no
state. Q is constructed again only while neither of its ports is in use, and its ports are then bound to the contexts that
the binding names (log 11, log 12). -/
def construct (u : UnitId) (ports : PortUse) (s : State) : StepOutcome :=
  match u with
  | .codec => .next s
  | .db => .next (s.withDb (dbConstructed s.cfg))
  | .tx => .next (s.withTx (TxUnit.constructed s.cfg))
  | .rx => .next (s.withRx (RxUnit.constructed s.cfg))
  | .q => if ports.either then .refused .qInUse else .next (s.withQ (QUnit.constructed s.cfg))

/-- Power-up is reset, the construction of all five units (60_exceptions.md R268). The stimuli still to come and the bytes
SINK already took lie outside the block. -/
def powerUp (s : State) : State :=
  { State.construct s.cfg s.bind with wire := s.wire, pending := s.pending }

/-! ### Fetching -/

/-- What the next step is to do. -/
inductive Fetched where
  /-- run a command in a state whose port is the command's -/
  | run (i : Instr) (s : State)
  /-- nothing to run: the step ends so -/
  | done (o : StepOutcome)

/-- The next stimulus, in the order of the checks of 60_exceptions.md R257: the configuration, then OPSEL. The issuing
context and the command's own checks belong to the command's meaning. With no stimulus left nothing changes
(60_exceptions.md R268). -/
def fetch (s : State) : Fetched :=
  if configOk s.cfg then
    match s.pending with
    | [] => .done (.next s)
    | .command c :: rest =>
      match decode s.cfg c.word with
      | .ok i => .run i (s.accepts c rest)
      | .error (.reservedOpsel code) => .done (.refused (.reservedOpsel code))
    | .construct u ports :: rest => .done (construct u ports (s.continues rest))
    | .powerUp :: rest => .done (.next (powerUp (s.continues rest)))
  else .done (.refused .badConfiguration)

/-- A context that may issue the command of an OPSEL value: the unit's owner or the port's driver. -/
def issuerOf (b : Binding) : Opsel → Ctx
  | .codecEnckey | .codecEncenc | .codecDecode => .a
  | .dbSubmit | .dbRelease => b.dbOwner
  | .txMatrix | .txEncoder | .txPump => b.txOwner
  | .rxCycle => b.rxOwner
  | .qPush => b.producer
  | .qPop | .qPeek | .qAvail => b.consumer

/-- The command that a table word stands for, issued by a context that may issue it, with draws that are always within
their contracts (log 4). -/
def commandOfWord (b : Binding) (w : Nat) : Command where
  word := w
  port := { Port.idle with ctx := match Opsel.ofCode (fieldBits w 0 8) with
                                  | some o => issuerOf b o
                                  | none => .a }

end Sys2Proof.Machine
end

