-- ==== Sys2Proof/Machine/Flags.lean ====
section
/-! DEFINITION. The conditions that decide a command's outcome, and the status codes.

KBDCORE has no flags, condition codes or sticky bits (10_state.md R23): each outcome is a status in the result record
(60_exceptions.md R251). The tests other machines keep in flags are the functions of this file. -/

namespace Sys2Proof.Machine

/-- The numeric status codes (60_exceptions.md R251). -/
def Status.code : Status → Nat
  | .ok => 0
  | .full => 1
  | .empty => 2
  | .badIndex => 3
  | .illegal => 4
  | .wouldBlock => 5
  | .sinkError => 6
  | .range => 7

/-- The key index is not one the codec takes: IDX ≥ 31 (40_codec.md R121). -/
def indexTooLarge (idx : Byte) : Bool := decide (codecMaxIndex < idx.toNat)

/-- The button index is outside [0, NUM_BUTTONS) (41_debounce.md R141, R146). -/
def buttonOutOfRange (cfg : Config) (b : Byte) : Bool := decide (cfg.numButtons ≤ b.toNat)

/-- The clock went backwards: NOW is before the window anchor (41_debounce.md R143, R147). -/
def clockWentBack (d : DbRecord) (now : Nat) : Bool := decide (now < d.ts)

/-- NOW lies inside the window: elapsed = NOW − ts < WINDOW, for NOW ≥ ts (41_debounce.md R148). -/
def insideWindow (window : Nat) (d : DbRecord) (now : Nat) : Bool := decide (now - d.ts < window)

/-- Fewer bytes remain in TXB than a frame needs (42_link_tx.md R171). -/
def txLacksRoom (cfg : Config) (tx : TxUnit) (n : Nat) : Bool := decide (cfg.txCap - tx.cur < n)

/-- Sink health: 0 exactly when SINK answered Error in this pump (42_link_tx.md R178). -/
def sinkHealthy : SinkAnswer → Bool
  | .written _ => true
  | .wouldBlock => true
  | .error => false

/-- The slot index after i, cyclically (44_spsc_queue.md R221, R222). -/
def slotAfter (cfg : Config) (i : Nat) : Nat := (i + 1) % cfg.qSlots

/-- Full, as the producer sees it: the next tail is the observed head (44_spsc_queue.md R221). -/
def qLooksFull (cfg : Config) (q : QUnit) (hObs : Nat) : Bool := decide (slotAfter cfg q.tail = hObs % cfg.qSlots)

/-- Empty, as the consumer sees it: the head is the observed tail (44_spsc_queue.md R222). -/
def qLooksEmpty (cfg : Config) (q : QUnit) (tObs : Nat) : Bool := decide (q.head = tObs % cfg.qSlots)

end Sys2Proof.Machine
end

