-- ==== Sys2Proof/Machine/Operands.lean ====
section
/-! DEFINITION. Operand assembly (30_encoding.md R96) and the bytes of the wire frames (R90, R91).

KBDCORE never sign-extends, scales or shifts an operand. IDX, BYTE, B, V, NOW, PR, S and CW are the decoder's fields as
they stand; what needs assembling is the snapshot and the two frames. -/

namespace Sys2Proof.Machine

/-- `v[NUM_CELLS−1:0]`, zero-extended to 32 bits: the snapshot operand and the wire snapshot (30_encoding.md R96). -/
def cellsOf (cfg : Config) (v : BitVec 32) : Snapshot := v &&& BitVec.ofNat 32 (2 ^ cfg.numCells - 1)

/-- Payload byte j holds bits [8j+7 : 8j] of the field (20_memory.md R51). -/
def payloadByte (f : BitVec 32) (j : Nat) : Byte := f.extractLsb' (8 * j) 8

/-- F = {b3, b2, b1, b0} (30_encoding.md R96). -/
def payloadField (b0 b1 b2 b3 : Byte) : BitVec 32 := b3 ++ b2 ++ b1 ++ b0

/-- The bytes of a matrix frame (30_encoding.md R90). -/
def matrixFrameBytes (f : BitVec 32) : List Byte :=
  [tagMatrix, payloadByte f 0, payloadByte f 1, payloadByte f 2, payloadByte f 3]

/-- The direction byte on the wire: 0x00 is clockwise, 0x01 counter-clockwise (30_encoding.md R91). -/
def wireDir (cw : Bool) : Byte := if cw then 0x00#8 else 0x01#8

/-- The bytes of an encoder frame (30_encoding.md R91). -/
def encoderFrameBytes (cw : Bool) : List Byte := [tagEncoder, wireDir cw]

/-- The codec byte of a key event: {0b0, 0b0, PR, IDX[4:0]} (40_codec.md R121). -/
def codecKeyByte (idx : Byte) (pr : Bool) : Byte :=
  (idx.extractLsb' 0 5).setWidth 8 ||| ((BitVec.ofBool pr).setWidth 8 <<< 5)

/-- The codec byte of an encoder event (30_encoding.md R89, 40_codec.md R122). -/
def codecEncoderByte (cw : Bool) : Byte := if cw then 0xC0#8 else 0x40#8

/-- Row and column of a cell index, and its new state (43_link_rx.md R199). -/
def changeAt (cfg : Config) (new : Snapshot) (i : Nat) : Change where
  row := i / cfg.numCols
  col := i % cfg.numCols
  newState := new.getLsbD i

end Sys2Proof.Machine
end

