-- ==== Sys2Proof/Machine/Codec.lean ====
section
/-! DEFINITION. CODEC (40_codec.md): the three commands, and the four patterns of a codec byte.

CODEC has no state and no owner: each meaning only returns a result record (10_state.md R25, 20_memory.md R62). -/

namespace Sys2Proof.Machine

/-- The record of CODEC_DECODE for an encoder event. -/
def decodedEncoder (cw : Bool) : Result := ⟨.ok, .encoder cw⟩

/-- The record of CODEC_DECODE for a reserved pattern (30_encoding.md R88). -/
def decodedIllegal : Result := ⟨.illegal, .none⟩

/-- The record of CODEC_DECODE for a key event. -/
def decodedKey (index : BitVec 5) (pressed : Bool) : Result := ⟨.ok, .key index pressed⟩

/-- CODEC_ENCKEY (40_codec.md R121). -/
def execCodecEnckey (idx : Byte) (pr : Bool) (s : State) : StepOutcome :=
  if indexTooLarge idx then complete s ⟨.badIndex, .none⟩
  else complete s ⟨.ok, .byte (codecKeyByte idx pr)⟩

/-- CODEC_ENCENC (40_codec.md R122). -/
def execCodecEncenc (cw : Bool) (s : State) : StepOutcome :=
  complete s ⟨.ok, .byte (codecEncoderByte cw)⟩

/-- CODEC_DECODE (40_codec.md R123): the marker is tested first, then the reserved index. -/
def execCodecDecode (x : Byte) (s : State) : StepOutcome :=
  if x.getLsbD 6 then complete s (decodedEncoder (x.getLsbD 7))
  else if x.extractLsb' 0 5 = 31#5 then complete s decodedIllegal
  else complete s (decodedKey (x.extractLsb' 0 5) (x.getLsbD 5))

/-- CODEC_DECODE meets a byte of pattern CODEC_ENCODER_CW; bits [5:0] are ignored (30_encoding.md R87 case 1). -/
def execCodecEncoderCw (_low : BitVec 6) (s : State) : StepOutcome := complete s (decodedEncoder true)

/-- CODEC_DECODE meets a byte of pattern CODEC_ENCODER_CCW; bits [5:0] are ignored (30_encoding.md R87 case 1). -/
def execCodecEncoderCcw (_low : BitVec 6) (s : State) : StepOutcome := complete s (decodedEncoder false)

/-- CODEC_DECODE meets a byte of pattern CODEC_ILLEGAL; bits 7 and 5 are ignored (30_encoding.md R87 case 2, R88). -/
def execCodecIllegal (_bit7 _bit5 : Bool) (s : State) : StepOutcome := complete s decodedIllegal

/-- CODEC_DECODE meets a byte of pattern CODEC_KEY; bit 7 is ignored (30_encoding.md R87 case 3). -/
def execCodecKey (_bit7 pr : Bool) (idx : BitVec 5) (s : State) : StepOutcome := complete s (decodedKey idx pr)

end Sys2Proof.Machine
end

