-- ==== Sys2Proof/Machine/Debounce.lean ====
section
/-! DEFINITION. DB, the debounce filter (41_debounce.md). -/

namespace Sys2Proof.Machine

/-- `DB[b]`, for b in [0, NUM_BUTTONS). -/
def dbRecord (s : State) (b : Byte) : DbRecord := s.db.getD b.toNat DbRecord.idle

/-- `DB[b]` written. -/
def dbWrite (s : State) (b : Byte) (d : DbRecord) : State := s.withDb (s.db.set b.toNat d)

/-- An acceptance at time `now`: the anchor is recorded and the quarantine is cleared (41_debounce.md R142, R143, R145). -/
def DbRecord.accepted (d : DbRecord) (now : Nat) : DbRecord := { d with laValid := true, ts := now, qValid := false }

/-- A state quarantined at time `now`: the window slides to start there (41_debounce.md R144). -/
def DbRecord.quarantined (d : DbRecord) (st : Bool) (now : Nat) : DbRecord :=
  { d with qValid := true, qState := st, ts := now }

/-- A quarantined state released at time `now` (41_debounce.md R146, R147). -/
def DbRecord.released (d : DbRecord) (now : Nat) : DbRecord := { d with qValid := false, ts := now }

/-- The four branches of DB_SUBMIT on one record (41_debounce.md R142 to R145). -/
def submitTo (window : Nat) (d : DbRecord) (st : Bool) (now : Nat) : DbRecord × Output :=
  if !d.laValid then (d.accepted now, .accept st)
  else if clockWentBack d now then (d.accepted now, .accept st)
  else if insideWindow window d now then
    if d.qValid && d.qState == st then (d, .reject) else (d.quarantined st now, .reject)
  else (d.accepted now, .accept st)

/-- DB_RELEASE on one record (41_debounce.md R146, R147). -/
def releaseFrom (window : Nat) (d : DbRecord) (now : Nat) : DbRecord × Output :=
  if !d.qValid then (d, .noVerdict)
  else if clockWentBack d now || !insideWindow window d now then (d.released now, .accept d.qState)
  else (d, .noVerdict)

/-- A DB command on button b: the range check comes before any branch (60_exceptions.md R257), and only `DB[b]` is written
(41_debounce.md R150). -/
def onButton (b : Byte) (s : State) (f : DbRecord → DbRecord × Output) : StepOutcome :=
  if buttonOutOfRange s.cfg b then complete s ⟨.range, .none⟩
  else complete (dbWrite s b (f (dbRecord s b)).1) ⟨.ok, (f (dbRecord s b)).2⟩

/-- DB_SUBMIT (41_debounce.md R141). -/
def execDbSubmit (b : Byte) (st : Bool) (now : Nat) (s : State) : StepOutcome :=
  whenIssuedBy s.bind.dbOwner (.notOwner .db) s (onButton b s (fun d => submitTo s.cfg.window d st now))

/-- DB_RELEASE (41_debounce.md R146). -/
def execDbRelease (b : Byte) (now : Nat) (s : State) : StepOutcome :=
  whenIssuedBy s.bind.dbOwner (.notOwner .db) s (onButton b s (fun d => releaseFrom s.cfg.window d now))

end Sys2Proof.Machine
end

