-- ==== Sys2Proof/Machine/LinkRx.lean ====
section
/-! DEFINITION. RX, the link frame receiver (43_link_rx.md): RX_CYCLE, and the six wire patterns it interprets. -/

namespace Sys2Proof.Machine

/-! ### Frames -/

/-- The cells where two snapshots differ, in ascending cell index (43_link_rx.md R195 step 2). -/
def differingCells (cfg : Config) (new old : Snapshot) : List Nat :=
  (List.range cfg.numCells).filter (fun i => new.getLsbD i != old.getLsbD i)

/-- The change list: the first MAX_CHANGES differing cells (43_link_rx.md R199). -/
def changeList (cfg : Config) (new old : Snapshot) : List Change :=
  ((differingCells cfg new old).take cfg.maxChanges).map (changeAt cfg new)

/-- MATRIX_FRAME for the field F of the payload (43_link_rx.md R195, R200). -/
def matrixFrame (cfg : Config) (f : BitVec 32) (rx : RxUnit) : RxUnit × Output :=
  ({ rx with remote := cellsOf cfg f, cur := 0 }, .matrix (cellsOf cfg f) (changeList cfg (cellsOf cfg f) rx.remote))

/-- A complete encoder frame with a valid direction byte: the cursor is reset (43_link_rx.md R196, R200). -/
def validDirection (cw : Bool) (rx : RxUnit) : RxUnit × Output := ({ rx with cur := 0 }, .encoder cw)

/-- A complete encoder frame with a malformed direction byte: discarded and counted (43_link_rx.md R196). -/
def malformedDirection (cfg : Config) (rx : RxUnit) : RxUnit × Output :=
  ({ rx with cur := 0, cntMalformed := wrapAdd cfg.cntBits rx.cntMalformed 1 }, .nothing)

/-- ENCODER_FRAME for the direction byte d (43_link_rx.md R196). -/
def encoderFrame (cfg : Config) (d : Byte) (rx : RxUnit) : RxUnit × Output :=
  if d = 0x00#8 then validDirection true rx
  else if d = 0x01#8 then validDirection false rx
  else malformedDirection cfg rx

/-! ### Resync and interpretation -/

/-- A byte that is a tag (30_encoding.md R92). -/
def isTag (x : Byte) : Bool := x == tagMatrix || x == tagEncoder

/-- The first of the n offsets k, k+1, … at which the array holds a tag (43_link_rx.md R197). -/
def findTag (buf : List Byte) (k : Nat) : Nat → Option Nat
  | 0 => none
  | n + 1 => if isTag (buf.getD k 0#8) then some k else findTag buf (k + 1) n

/-- RXB shifted down by k, so that offset k becomes offset 0 (43_link_rx.md R197). -/
def RxUnit.shifted (rx : RxUnit) (k : Nat) : RxUnit :=
  { rx with buf := shiftDown rx.buf k (rx.cur - k), cur := rx.cur - k }

/-- RESYNC (43_link_rx.md R197); `retry` is the interpretation that follows a shift. -/
def resync (cfg : Config) (retry : RxUnit → RxUnit × Output) (rx : RxUnit) : RxUnit × Output :=
  match findTag rx.buf 1 (rx.cur - 1) with
  | some k => retry { rx.shifted k with cntResync := wrapAdd cfg.cntBits rx.cntResync 1 }
  | none => ({ rx with cur := 0, cntResync := wrapAdd cfg.cntBits rx.cntResync 1 }, .nothing)

/-- INTERPRET (43_link_rx.md R191, R193 to R197), from offset 0 by the tag byte. The first argument bounds the retries; each
strictly shrinks the buffer, so `rx_cur` many are enough (R198), and the case 0 is not reached from RX_CYCLE. -/
def interpret (cfg : Config) : Nat → RxUnit → RxUnit × Output
  | 0, rx => (rx, .nothing)
  | fuel + 1, rx =>
    if rx.buf.getD 0 0#8 = tagMatrix then
      if rx.cur < 5 then (rx, .nothing)
      else matrixFrame cfg (payloadField (rx.buf.getD 1 0#8) (rx.buf.getD 2 0#8) (rx.buf.getD 3 0#8) (rx.buf.getD 4 0#8)) rx
    else if rx.buf.getD 0 0#8 = tagEncoder then
      if rx.cur < 2 then (rx, .nothing) else encoderFrame cfg (rx.buf.getD 1 0#8) rx
    else resync cfg (interpret cfg fuel) rx

/-! ### The read step and the cycle -/

/-- RX after a read that delivered bytes (43_link_rx.md R192). -/
def RxUnit.received (cfg : Config) (rx : RxUnit) (bytes : List Byte) : RxUnit :=
  { rx with buf := memWrite rx.buf rx.cur bytes
            cur := rx.cur + bytes.length
            cntBytes := wrapAdd cfg.cntBits rx.cntBytes bytes.length
            cntReads := wrapAdd cfg.cntBits rx.cntReads 1 }

/-- RX ends a cycle: its status is always OK (43_link_rx.md R191). -/
def rxDone (s : State) (r : RxUnit × Output) : StepOutcome := complete (s.withRx r.1) ⟨.ok, r.2⟩

/-- One receive cycle: the read comes before the interpretation (43_link_rx.md R191, R192). A cycle that reads nothing
writes no state. -/
def cycle (s : State) : StepOutcome :=
  match s.port.source with
  | .wouldBlock => complete s ⟨.ok, .nothing⟩
  | .error => complete s ⟨.ok, .nothing⟩
  | .read [] => complete s ⟨.ok, .nothing⟩
  | .read (x :: xs) =>
    if (x :: xs).length ≤ s.cfg.rxCap - s.rx.cur then
      rxDone s (interpret s.cfg (s.rx.received s.cfg (x :: xs)).cur (s.rx.received s.cfg (x :: xs)))
    else .refused .sourceContract

/-- RX_CYCLE (43_link_rx.md R191). -/
def execRxCycle (s : State) : StepOutcome :=
  whenIssuedBy s.bind.rxOwner (.notOwner .rx) s (cycle s)

/-! ### The patterns

Each is what RX does when its interpretation meets the pattern; the context was checked by the RX_CYCLE that interprets. -/

/-- A complete matrix frame with the field F (43_link_rx.md R195). -/
def execWireMatrixFrame (f : BitVec 32) (s : State) : StepOutcome := rxDone s (matrixFrame s.cfg f s.rx)

/-- A complete encoder frame with the direction byte d (43_link_rx.md R196). -/
def execWireEncoderFrame (d : Byte) (s : State) : StepOutcome := rxDone s (encoderFrame s.cfg d s.rx)

/-- An unrecognized tag at offset 0 of RXB: resync over the buffered bytes (43_link_rx.md R197). The byte itself plays no
part in the scan, which begins at offset 1. -/
def execWireUnrecognizedTag (_tag : Byte) (s : State) : StepOutcome :=
  rxDone s (resync s.cfg (interpret s.cfg s.rx.cur) s.rx)

/-- Direction byte 0x00 of a complete encoder frame: clockwise (43_link_rx.md R196). -/
def execWireDirCw (s : State) : StepOutcome := rxDone s (validDirection true s.rx)

/-- Direction byte 0x01 of a complete encoder frame: counter-clockwise (43_link_rx.md R196). -/
def execWireDirCcw (s : State) : StepOutcome := rxDone s (validDirection false s.rx)

/-- Any other direction byte of a complete encoder frame: malformed (43_link_rx.md R196). -/
def execWireDirMalformed (_d : Byte) (s : State) : StepOutcome := rxDone s (malformedDirection s.cfg s.rx)

end Sys2Proof.Machine
end

