-- ==== Sys2Proof/Machine/LinkTx.lean ====
section
/-! DEFINITION. TX, the link frame serializer (42_link_tx.md). -/

namespace Sys2Proof.Machine

/-- The frame is appended at the cursor (42_link_tx.md R172, R173). -/
def TxUnit.append (tx : TxUnit) (frame : List Byte) : TxUnit where
  buf := memWrite tx.buf tx.cur frame
  cur := tx.cur + frame.length

/-- SINK took the first n pending bytes: the rest moves to the front, in order (42_link_tx.md R176). -/
def TxUnit.sent (tx : TxUnit) (n : Nat) : TxUnit where
  buf := shiftDown tx.buf n (tx.cur - n)
  cur := tx.cur - n

/-- A serialize command queues its whole frame or nothing (42_link_tx.md R171). -/
def queueFrame (frame : List Byte) (s : State) : StepOutcome :=
  if txLacksRoom s.cfg s.tx frame.length then complete s ⟨.full, .none⟩
  else complete (s.withTx (s.tx.append frame)) ⟨.ok, .none⟩

/-- One non-blocking attempt to send the pending bytes; the empty-buffer check comes before the draw (42_link_tx.md R174 to
R178, 60_exceptions.md R257). -/
def pump (s : State) : StepOutcome :=
  if s.tx.cur = 0 then complete s ⟨.ok, .pumped 0 true⟩
  else
    match s.port.sink with
    | .written n =>
      if n ≤ s.tx.cur then
        complete ((s.withTx (s.tx.sent n)).sends (memRead s.tx.buf 0 n)) ⟨.ok, .pumped n (sinkHealthy (.written n))⟩
      else .refused .sinkContract
    | .wouldBlock => complete s ⟨.wouldBlock, .pumped 0 (sinkHealthy .wouldBlock)⟩
    | .error => complete s ⟨.sinkError, .pumped 0 (sinkHealthy .error)⟩

/-- TX_MATRIX (42_link_tx.md R172): the snapshot's bits at and above NUM_CELLS are sent as 0. -/
def execTxMatrix (snap : BitVec 32) (s : State) : StepOutcome :=
  whenIssuedBy s.bind.txOwner (.notOwner .tx) s (queueFrame (matrixFrameBytes (cellsOf s.cfg snap)) s)

/-- TX_ENCODER (42_link_tx.md R173). -/
def execTxEncoder (cw : Bool) (s : State) : StepOutcome :=
  whenIssuedBy s.bind.txOwner (.notOwner .tx) s (queueFrame (encoderFrameBytes cw) s)

/-- TX_PUMP (42_link_tx.md R174). -/
def execTxPump (s : State) : StepOutcome :=
  whenIssuedBy s.bind.txOwner (.notOwner .tx) s (pump s)

end Sys2Proof.Machine
end

