-- ==== Sys2Proof/Machine/Queue.lean ====
section
/-! DEFINITION. Q, the single-producer/single-consumer queue (44_spsc_queue.md). The ghost counters are updated beside the
real cursors, as in the spec's pseudocode. -/

namespace Sys2Proof.Machine

/-- The HC the producer port observes in this command (20_memory.md R57). -/
def headObserved (s : State) : Nat := observe s.q.pSeen s.q.hc s.port.view

/-- The TC the consumer port observes in this command (20_memory.md R57). -/
def tailObserved (s : State) : Nat := observe s.q.cSeen s.q.tc s.port.view

/-- The element stored at TAIL, and TAIL moved on (44_spsc_queue.md R221). -/
def QUnit.pushed (cfg : Config) (q : QUnit) (v : Nat) : QUnit :=
  { q with slot := q.slot.set q.tail v, tail := slotAfter cfg q.tail, tc := q.tc + 1 }

/-- HEAD moved on (44_spsc_queue.md R222). -/
def QUnit.popped (cfg : Config) (q : QUnit) : QUnit :=
  { q with head := slotAfter cfg q.head, hc := q.hc + 1 }

/-- `SLOT[HEAD]`. -/
def QUnit.front (q : QUnit) : Nat := q.slot.getD q.head 0

/-- The producer's view moved on (20_memory.md R57). -/
def QUnit.sawHead (q : QUnit) (hObs : Nat) : QUnit := { q with pSeen := hObs }

/-- The consumer's view moved on (20_memory.md R57). -/
def QUnit.sawTail (q : QUnit) (tObs : Nat) : QUnit := { q with cSeen := tObs }

/-- The view comes before the slot access (60_exceptions.md R257). -/
def push (v : Nat) (s : State) : StepOutcome :=
  if qLooksFull s.cfg s.q (headObserved s) then complete (s.withQ (s.q.sawHead (headObserved s))) ⟨.full, .none⟩
  else complete (s.withQ ((s.q.sawHead (headObserved s)).pushed s.cfg v)) ⟨.ok, .none⟩

/-- Remove and return the oldest element (44_spsc_queue.md R222). -/
def pop (s : State) : StepOutcome :=
  if qLooksEmpty s.cfg s.q (tailObserved s) then complete (s.withQ (s.q.sawTail (tailObserved s))) ⟨.empty, .none⟩
  else complete (s.withQ ((s.q.sawTail (tailObserved s)).popped s.cfg)) ⟨.ok, .value s.q.front⟩

/-- Return the oldest element without removing it (44_spsc_queue.md R223). -/
def peek (s : State) : StepOutcome :=
  if qLooksEmpty s.cfg s.q (tailObserved s) then complete (s.withQ (s.q.sawTail (tailObserved s))) ⟨.empty, .none⟩
  else complete (s.withQ (s.q.sawTail (tailObserved s))) ⟨.ok, .value s.q.front⟩

/-- The advisory element count, ((t_obs mod N) − HEAD + N) mod N; no state is written (44_spsc_queue.md R224). -/
def avail (s : State) : StepOutcome :=
  complete s ⟨.ok, .count ((tailObserved s % s.cfg.qSlots + s.cfg.qSlots - s.q.head) % s.cfg.qSlots)⟩

/-- Q_PUSH (44_spsc_queue.md R221): the producer's context only. -/
def execQPush (v : Nat) (s : State) : StepOutcome :=
  whenIssuedBy s.bind.producer .notProducer s (push v s)

/-- Q_POP (44_spsc_queue.md R222): the consumer's context only. -/
def execQPop (s : State) : StepOutcome :=
  whenIssuedBy s.bind.consumer .notConsumer s (pop s)

/-- Q_PEEK (44_spsc_queue.md R223): the consumer's context only. -/
def execQPeek (s : State) : StepOutcome :=
  whenIssuedBy s.bind.consumer .notConsumer s (peek s)

/-- Q_AVAIL (44_spsc_queue.md R224): the consumer's context only. -/
def execQAvail (s : State) : StepOutcome :=
  whenIssuedBy s.bind.consumer .notConsumer s (avail s)

end Sys2Proof.Machine
end

