-- ==== Sys2Proof/Machine/Dispatch.lean ====
section
/-! DEFINITION. One arm for each row of spec/opcode_table.json. -/

namespace Sys2Proof.Machine

def exec (i : Instr) (s : State) : Host.Outcome State Fault Refusal :=
  match i with
  -- the thirteen commands (30_encoding.md R82)
  | .codecEnckey idx pr => Sys2Proof.Machine.execCodecEnckey idx pr s
  | .codecEncenc cw => Sys2Proof.Machine.execCodecEncenc cw s
  | .codecDecode x => Sys2Proof.Machine.execCodecDecode x s
  | .dbSubmit b st now => Sys2Proof.Machine.execDbSubmit b st now s
  | .dbRelease b now => Sys2Proof.Machine.execDbRelease b now s
  | .txMatrix snap => Sys2Proof.Machine.execTxMatrix snap s
  | .txEncoder cw => Sys2Proof.Machine.execTxEncoder cw s
  | .txPump => Sys2Proof.Machine.execTxPump s
  | .rxCycle => Sys2Proof.Machine.execRxCycle s
  | .qPush v => Sys2Proof.Machine.execQPush v s
  | .qPop => Sys2Proof.Machine.execQPop s
  | .qPeek => Sys2Proof.Machine.execQPeek s
  | .qAvail => Sys2Proof.Machine.execQAvail s
  -- the codec byte's patterns (30_encoding.md R87)
  | .codecEncoderCw low => Sys2Proof.Machine.execCodecEncoderCw low s
  | .codecEncoderCcw low => Sys2Proof.Machine.execCodecEncoderCcw low s
  | .codecIllegal bit7 bit5 => Sys2Proof.Machine.execCodecIllegal bit7 bit5 s
  | .codecKey bit7 pr idx => Sys2Proof.Machine.execCodecKey bit7 pr idx s
  -- the wire patterns (43_link_rx.md R193, R196)
  | .wireMatrixFrame f => Sys2Proof.Machine.execWireMatrixFrame f s
  | .wireEncoderFrame d => Sys2Proof.Machine.execWireEncoderFrame d s
  | .wireUnrecognizedTag tag => Sys2Proof.Machine.execWireUnrecognizedTag tag s
  | .wireDirCw => Sys2Proof.Machine.execWireDirCw s
  | .wireDirCcw => Sys2Proof.Machine.execWireDirCcw s
  | .wireDirMalformed d => Sys2Proof.Machine.execWireDirMalformed d s

end Sys2Proof.Machine
end

