-- ==== Sys2Proof/Machine/Step.lean ====
section
/-! DEFINITION. One step of the machine, and the host's way to put a command first. -/

namespace Sys2Proof.Machine

/-- One stimulus, taken whole: a command is one indivisible transaction (00_scope.md R12). -/
def step (s : State) : Host.Outcome State Fault Refusal :=
  match fetch s with
  | .run i t => exec i t
  | .done o => o

/-- The state with one more command in front of the stimuli, issued by a context that may issue it (log 4). -/
def State.withFetchWord (s : State) (nbits w : Nat) : State :=
  s.continues (.command (commandOfWord s.bind (w % 2 ^ nbits)) :: s.pending)

end Sys2Proof.Machine
end

