-- ==== Sys2Proof/Safety.lean ====
section
/-! DEFINITION. The terms in which statements speak of the machine: the invariants the spec states, what a unit's storage
holds, runs of commands and their logs, and a list-level account of what RX makes of a byte stream. -/

namespace Sys2Proof.Machine

/-! ### Invariants -/

/-- DB has one record a button, each with 10_state.md R27 and a timestamp of TS_BITS bits (R26). -/
def DbInv (s : State) : Prop :=
  s.db.length = s.cfg.numButtons ∧
  ∀ d ∈ s.db, (d.qValid = true → d.laValid = true) ∧ d.ts < 2 ^ s.cfg.tsBits

/-- TXB has TXCAP bytes and the cursor lies in it (10_state.md R29, R30). -/
def TxInv (s : State) : Prop := s.tx.buf.length = s.cfg.txCap ∧ s.tx.cur ≤ s.cfg.txCap

/-- What RXB may hold between RX commands (10_state.md R34). -/
def RxAligned (rx : RxUnit) : Prop :=
  rx.cur = 0 ∨
  (rx.buf.getD 0 0#8 = 0xFF#8 ∧ 1 ≤ rx.cur ∧ rx.cur ≤ 4) ∨
  (rx.buf.getD 0 0#8 = 0xFE#8 ∧ rx.cur = 1)

/-- RXB has RXCAP bytes and is aligned (10_state.md R31, R34), `remote` has NUM_CELLS bits (R32) and each counter CNT_BITS
bits (R33). -/
def RxInv (s : State) : Prop :=
  s.rx.buf.length = s.cfg.rxCap ∧ RxAligned s.rx ∧
  (∀ i, s.cfg.numCells ≤ i → s.rx.remote.getLsbD i = false) ∧
  s.rx.cntBytes < 2 ^ s.cfg.cntBits ∧ s.rx.cntReads < 2 ^ s.cfg.cntBits ∧
  s.rx.cntMalformed < 2 ^ s.cfg.cntBits ∧ s.rx.cntResync < 2 ^ s.cfg.cntBits

/-- SLOT has N elements of W bits (10_state.md R35), the cursors are the ghost counters mod N (R37), and the chain of R38
holds. -/
def QInv (s : State) : Prop :=
  s.q.slot.length = s.cfg.qSlots ∧ (∀ v ∈ s.q.slot, v < 2 ^ s.cfg.qWidth) ∧
  s.q.head = s.q.hc % s.cfg.qSlots ∧ s.q.tail = s.q.tc % s.cfg.qSlots ∧
  s.q.pSeen ≤ s.q.hc ∧ s.q.hc ≤ s.q.cSeen ∧ s.q.cSeen ≤ s.q.tc ∧ s.q.tc ≤ s.q.pSeen + (s.cfg.qSlots - 1)

/-- The configuration has a meaning (00_scope.md R7) and every unit's invariant holds. -/
structure Inv (s : State) : Prop where
  cfgOk : configOk s.cfg = true
  db : DbInv s
  tx : TxInv s
  rx : RxInv s
  q : QInv s

/-! ### What the storage holds -/

/-- The pending bytes, in transmission order (10_state.md R29). -/
def txPending (s : State) : List Byte := s.tx.buf.take s.tx.cur

/-- The valid received bytes (10_state.md R31). -/
def rxHeld (s : State) : List Byte := s.rx.buf.take s.rx.cur

/-- The unconsumed elements, oldest first (10_state.md R38). -/
def queued (s : State) : List Nat :=
  (List.range (s.q.tc - s.q.hc)).map (fun j => s.q.slot.getD ((s.q.hc + j) % s.cfg.qSlots) 0)

/-- A whole wire frame that TX can queue (30_encoding.md R90, R91). -/
def IsFrame (cfg : Config) (bytes : List Byte) : Prop :=
  (∃ snap, bytes = matrixFrameBytes (cellsOf cfg snap)) ∨ (∃ cw, bytes = encoderFrameBytes cw)

/-- A suffix of one frame, at the front, and then whole frames (10_state.md R30). -/
def Framed (cfg : Config) (bytes : List Byte) : Prop :=
  ∃ (first : List Byte) (frames : List (List Byte)),
    (∃ f, IsFrame cfg f ∧ first <:+ f) ∧ (∀ f ∈ frames, IsFrame cfg f) ∧ bytes = first ++ frames.flatten

/-! ### Units and issuers -/

/-- The unit an instruction belongs to (30_encoding.md R81; a data pattern belongs to the unit that decodes it). -/
def unitOf : Instr → UnitId
  | .codecEnckey _ _ | .codecEncenc _ | .codecDecode _ => .codec
  | .codecEncoderCw _ | .codecEncoderCcw _ | .codecIllegal _ _ | .codecKey _ _ _ => .codec
  | .dbSubmit _ _ _ | .dbRelease _ _ => .db
  | .txMatrix _ | .txEncoder _ | .txPump => .tx
  | .rxCycle => .rx
  | .wireMatrixFrame _ | .wireEncoderFrame _ | .wireUnrecognizedTag _ => .rx
  | .wireDirCw | .wireDirCcw | .wireDirMalformed _ => .rx
  | .qPush _ | .qPop | .qPeek | .qAvail => .q

/-- The context may issue the instruction (60_exceptions.md R256 items 3 and 4). CODEC has no owner (20_memory.md R62), and
a data pattern is issued by no context. -/
def MayIssue (b : Binding) (c : Ctx) : Instr → Prop
  | .dbSubmit _ _ _ | .dbRelease _ _ => c = b.dbOwner
  | .txMatrix _ | .txEncoder _ | .txPump => c = b.txOwner
  | .rxCycle => c = b.rxOwner
  | .qPush _ => c = b.producer
  | .qPop | .qPeek | .qAvail => c = b.consumer
  | .codecEnckey _ _ | .codecEncenc _ | .codecDecode _ => True
  | .codecEncoderCw _ | .codecEncoderCcw _ | .codecIllegal _ _ | .codecKey _ _ _ => True
  | .wireMatrixFrame _ | .wireEncoderFrame _ | .wireUnrecognizedTag _ => True
  | .wireDirCw | .wireDirCcw | .wireDirMalformed _ => True

/-- The status values each command can return (30_encoding.md R84); a data pattern returns what the command that meets it
returns. -/
def statusesOf : Instr → List Status
  | .codecEnckey _ _ => [.ok, .badIndex]
  | .codecEncenc _ => [.ok]
  | .codecDecode _ => [.ok, .illegal]
  | .dbSubmit _ _ _ | .dbRelease _ _ => [.ok, .range]
  | .txMatrix _ | .txEncoder _ => [.ok, .full]
  | .txPump => [.ok, .wouldBlock, .sinkError]
  | .rxCycle => [.ok]
  | .qPush _ => [.ok, .full]
  | .qPop | .qPeek => [.ok, .empty]
  | .qAvail => [.ok]
  | .codecIllegal _ _ => [.illegal]
  | .codecEncoderCw _ | .codecEncoderCcw _ | .codecKey _ _ _ => [.ok]
  | .wireMatrixFrame _ | .wireEncoderFrame _ | .wireUnrecognizedTag _ => [.ok]
  | .wireDirCw | .wireDirCcw | .wireDirMalformed _ => [.ok]

/-- SINK's answer to the pending bytes is within its contract (42_link_tx.md R175). -/
def SinkKeepsContract (s : State) : Prop := ∀ n, s.port.sink = .written n → n ≤ s.tx.cur

/-- SOURCE's answer is within its contract (43_link_rx.md R192). -/
def SourceKeepsContract (s : State) : Prop := ∀ bytes, s.port.source = .read bytes → bytes.length ≤ s.cfg.rxCap - s.rx.cur

/-! ### Runs of commands -/

/-- From `start`, steps that each ran a command and returned a result record; the log lists the commands and their records,
oldest first. -/
inductive CommandRun (start : State) : List (Instr × Result) → State → Prop where
  | none : CommandRun start [] start
  | command {log : List (Instr × Result)} {s t : State} {c : Command} {rest : List Stimulus} {i : Instr} {r : Result} :
      CommandRun start log s → s.pending = .command c :: rest → decode s.cfg c.word = .ok i → step s = .next t →
      t.result = some r → CommandRun start (log ++ [(i, r)]) t

/-- The value a logged command pushed, if it was a successful Q_PUSH. -/
def pushedBy : Instr × Result → Option Nat
  | (.qPush v, ⟨.ok, _⟩) => some v
  | _ => none

/-- The value a logged command popped, if it was a successful Q_POP. -/
def poppedBy : Instr × Result → Option Nat
  | (.qPop, ⟨.ok, .value v⟩) => some v
  | _ => none

/-- The frame a logged command queued, if it was a successful TX_MATRIX or TX_ENCODER. -/
def frameBy (cfg : Config) : Instr × Result → List Byte
  | (.txMatrix snap, ⟨.ok, _⟩) => matrixFrameBytes (cellsOf cfg snap)
  | (.txEncoder cw, ⟨.ok, _⟩) => encoderFrameBytes cw
  | _ => []

/-- The same machine state, with other inputs for the next command. -/
def State.withPort (s : State) (p : Port) : State := { s with port := p }

/-- Q_PUSHes one after the other by the producer, each with the current view: the state after them, if all succeed. -/
def pushAll : List Nat → State → Option State
  | [], s => some s
  | v :: vs, s =>
    match exec (.qPush v) (s.withPort { s.port with ctx := s.bind.producer, view := none }) with
    | .next t => if t.result = some ⟨.ok, .none⟩ then pushAll vs t else none
    | _ => none

/-- Each value pushed by the producer and popped at once by the consumer, with current views: the values popped and the
state after them, if every command succeeds. -/
def pushPopAll : List Nat → State → Option (List Nat × State)
  | [], s => some ([], s)
  | v :: vs, s =>
    match exec (.qPush v) (s.withPort { s.port with ctx := s.bind.producer, view := none }) with
    | .next t =>
      match exec .qPop (t.withPort { t.port with ctx := t.bind.consumer, view := none }) with
      | .next u =>
        match t.result, u.result with
        | some ⟨.ok, _⟩, some ⟨.ok, .value x⟩ => (pushPopAll vs u).map (fun p => (x :: p.1, p.2))
        | _, _ => none
      | _ => none
    | _ => none

/-- DB_RELEASEs of one button at these times, each answering NONE: the state after them, if they all do. -/
def releasesNone (b : Byte) : List Nat → State → Option State
  | [], s => some s
  | now :: nows, s =>
    match exec (.dbRelease b now) s with
    | .next t => if t.result = some ⟨.ok, .noVerdict⟩ then releasesNone b nows t else none
    | _ => none

/-! ### What RX makes of a byte stream (43_link_rx.md R193 to R200), on lists -/

/-- What one interpretation leaves and reports: the bytes kept, the snapshot stored, the kind reported, and by how much the
two error counters grow. -/
structure RxReading where
  kept : List Byte
  remote : Snapshot
  output : Output
  malformed : Nat
  resyncs : Nat
  deriving DecidableEq, Repr

/-- A stream that begins with a tag (R194 to R196): a frame that is not complete waits; a complete one is decoded and the
bytes after it are dropped (R200). -/
def readAligned (cfg : Config) (remote : Snapshot) : List Byte → RxReading
  | 0xFF#8 :: b0 :: b1 :: b2 :: b3 :: _ =>
    ⟨[], cellsOf cfg (payloadField b0 b1 b2 b3),
      .matrix (cellsOf cfg (payloadField b0 b1 b2 b3)) (changeList cfg (cellsOf cfg (payloadField b0 b1 b2 b3)) remote), 0, 0⟩
  | 0xFE#8 :: 0x00#8 :: _ => ⟨[], remote, .encoder true, 0, 0⟩
  | 0xFE#8 :: 0x01#8 :: _ => ⟨[], remote, .encoder false, 0, 0⟩
  | 0xFE#8 :: _ :: _ => ⟨[], remote, .nothing, 1, 0⟩
  | bytes => ⟨bytes, remote, .nothing, 0, 0⟩

/-- Any stream: bytes before the first tag are dropped and counted as one resync (R197). -/
def readStream (cfg : Config) (remote : Snapshot) (bytes : List Byte) : RxReading :=
  match bytes with
  | [] => ⟨[], remote, .nothing, 0, 0⟩
  | x :: xs =>
    if isTag x then readAligned cfg remote (x :: xs)
    else { readAligned cfg remote (xs.dropWhile (fun y => !isTag y)) with resyncs := 1 }

end Sys2Proof.Machine
end

