-- ==== Sys2Proof/Certificates/Slice0/Obligations.lean ====
section
/-! DEFINITION. The statements for the provers.

Each docstring names the rule of spec/ it formalises. A record update `{ s with … }` in a conclusion is the frame: every
field it does not name is as before. Where a statement rests on a choice of the model, its docstring says so. -/

open Sys2Proof Sys2Proof.Machine

/-! ### Encoding -/

/-- 30_encoding.md R81 to R93: in every configuration, the decoder of an instruction's own format reads every well-formed
instruction back from its word, commands and data patterns alike. -/
def Obligations.DecodeOfEncodeIsTheInstruction : Prop :=
  ∀ (cfg : Config) (i : Instr), i.wellFormed cfg = true → decodeAs i.format cfg i.encode = .ok i

/-- 30_encoding.md R81, R83: a word that decodes to a command is, up to the length its OPSEL tells, the encoding of that
command, and the command is well formed. That the bits at and above that length are not looked at is the model's choice
(log 9). -/
def Obligations.EncodeOfDecodeIsTheWord : Prop :=
  ∀ (cfg : Config) (w : Nat) (i : Instr), decode cfg w = .ok i →
    i.wellFormed cfg = true ∧ i.format = .opsel ∧ i.encode = w % 2 ^ i.wordBits cfg

/-- 30_encoding.md R87, R91 to R94: every codec byte, direction byte and frame has a data pattern, which is well formed and
whose encoding is that byte or frame. -/
def Obligations.EveryBytePatternHasItsRow : Prop :=
  ∀ (cfg : Config),
    (∀ x : Byte, (decodeCodecByte x).wellFormed cfg = true ∧ (decodeCodecByte x).format = .codecByte ∧
      (decodeCodecByte x).encode = x.toNat) ∧
    (∀ d : Byte, (decodeWireDir d).wellFormed cfg = true ∧ (decodeWireDir d).format = .wireEncPayload ∧
      (decodeWireDir d).encode = d.toNat) ∧
    (∀ w : Nat, (decodeWireFrame w).wellFormed cfg = true ∧ (decodeWireFrame w).format = .wireTag ∧
      (decodeWireFrame w).encode = w % 2 ^ (decodeWireFrame w).wordBits cfg)

/-- 95_test_vectors.md: words written out there, or from 30_encoding.md R83, decode to the commands they stand for. -/
def Obligations.SpecWordsDecodeToTheirCommands : Prop :=
  decode Config.standard 0x10500 = .ok (.codecEnckey 5#8 true) ∧
  decode Config.standard 0x101 = .ok (.codecEncenc true) ∧
  decode Config.standard 0xC002 = .ok (.codecDecode 0xC0#8) ∧
  decode Config.standard 0x27100310 = .ok (.dbSubmit 3#8 false 5000) ∧
  decode Config.standard 0x3A980311 = .ok (.dbRelease 3#8 15000) ∧
  decode Config.standard 0x800020 = .ok (.txMatrix 0x00008000#32) ∧
  decode Config.standard 0x021 = .ok (.txEncoder false) ∧
  decode Config.standard 0x22 = .ok .txPump ∧
  decode Config.standard 0x30 = .ok .rxCycle ∧
  decode Config.standard 0x5840 = .ok (.qPush 88) ∧
  decode Config.standard 0x43 = .ok .qAvail

/-- 30_encoding.md R85 (and R82): a command whose OPSEL is none of the thirteen listed values is refused, whatever its
other bits and whoever issues it. -/
def Obligations.ReservedOpselIsRefused : Prop :=
  ∀ (s : State) (c : Command) (rest : List Stimulus) (code : Byte),
    configOk s.cfg = true → s.pending = .command c :: rest → c.word % 256 = code.toNat →
    code ∉ [0x00#8, 0x01#8, 0x02#8, 0x10#8, 0x11#8, 0x20#8, 0x21#8, 0x22#8, 0x30#8, 0x40#8, 0x41#8, 0x42#8, 0x43#8] →
    step s = .refused (.reservedOpsel code)

/-! ### The step, reset and construction -/

/-- 10_state.md R22, 00_scope.md R12: a command at the front that decodes is run, whole, on the state whose port is the
command's. How a step finds its command is the model's own (log 2, log 4). -/
def Obligations.StepRunsTheDecodedCommand : Prop :=
  ∀ (s : State) (c : Command) (rest : List Stimulus) (i : Instr),
    configOk s.cfg = true → s.pending = .command c :: rest → decode s.cfg c.word = .ok i →
    step s = exec i { s with port := c.port, pending := rest }

/-- 60_exceptions.md R268: between commands, state persists; with nothing pending a step changes nothing (log 4). -/
def Obligations.StepWithoutStimulusChangesNothing : Prop :=
  ∀ s : State, configOk s.cfg = true → s.pending = [] → step s = .next s

/-- 00_scope.md R7: a configuration that breaks a constraint is refused. -/
def Obligations.BrokenConfigurationIsRefused : Prop :=
  ∀ s : State,
    (32 < s.cfg.numRows * s.cfg.numCols ∨ s.cfg.numCols < 1 ∨ s.cfg.numRows < 1 ∨ s.cfg.txCap < 5 ∨ s.cfg.rxCap < 5 ∨
      s.cfg.qSlots < 2) →
    step s = .refused .badConfiguration

/-- 10_state.md R43: what construction leaves, in every configuration and binding, where the spec gives a value. -/
def Obligations.ResetLeavesTheSpecsValues : Prop :=
  ∀ (cfg : Config) (bind : Binding),
    let s := State.construct cfg bind
    s.db.length = cfg.numButtons ∧ (∀ d ∈ s.db, d.laValid = false ∧ d.qValid = false) ∧
    s.tx.cur = 0 ∧ s.tx.buf.length = cfg.txCap ∧
    s.rx.cur = 0 ∧ s.rx.buf.length = cfg.rxCap ∧ s.rx.remote = 0#32 ∧
    s.rx.cntBytes = 0 ∧ s.rx.cntReads = 0 ∧ s.rx.cntMalformed = 0 ∧ s.rx.cntResync = 0 ∧
    s.q.head = 0 ∧ s.q.tail = 0 ∧ s.q.slot.length = cfg.qSlots ∧
    s.q.tc = 0 ∧ s.q.hc = 0 ∧ s.q.pSeen = 0 ∧ s.q.cSeen = 0

/-- 70_reset_and_hazards.md R281, R283: constructing one unit gives it its reset values and touches no other; constructing Q
while either of its ports is in use is refused. That whether a port is in use is an input of the construction, and that Q's
ports keep the binding of the block, is the model's choice (log 11, log 12). -/
def Obligations.ConstructionTouchesOneUnit : Prop :=
  ∀ (s : State) (u : UnitId) (ports : PortUse) (rest : List Stimulus),
    configOk s.cfg = true → s.pending = .construct u ports :: rest →
    (u = .codec → step s = .next { s with pending := rest }) ∧
    (u = .db → ∃ db, step s = .next { s with db := db, pending := rest } ∧ db.length = s.cfg.numButtons ∧
      ∀ d ∈ db, d.laValid = false ∧ d.qValid = false) ∧
    (u = .tx → ∃ tx, step s = .next { s with tx := tx, pending := rest } ∧ tx.cur = 0 ∧ tx.buf.length = s.cfg.txCap) ∧
    (u = .rx → ∃ rx, step s = .next { s with rx := rx, pending := rest } ∧ rx.cur = 0 ∧ rx.buf.length = s.cfg.rxCap ∧
      rx.remote = 0#32 ∧ rx.cntBytes = 0 ∧ rx.cntReads = 0 ∧ rx.cntMalformed = 0 ∧ rx.cntResync = 0) ∧
    (u = .q → ports.producer = false → ports.consumer = false →
      ∃ q, step s = .next { s with q := q, pending := rest } ∧ q.head = 0 ∧ q.tail = 0 ∧ q.slot.length = s.cfg.qSlots ∧
        q.tc = 0 ∧ q.hc = 0 ∧ q.pSeen = 0 ∧ q.cSeen = 0) ∧
    (u = .q → ports.producer = true ∨ ports.consumer = true → step s = .refused .qInUse)

/-- 60_exceptions.md R268, 70_reset_and_hazards.md R281, 10_state.md R43: power-up constructs all five units, so that DB, TX,
RX and Q hold their reset values, and the configuration, the binding and the stimuli still to come are kept. That no result
record is left, that the port is idle and that the bytes SINK took are kept is the model's choice (log 7, log 2, log 10). -/
def Obligations.PowerUpConstructsEveryUnit : Prop :=
  ∀ (s : State) (rest : List Stimulus), configOk s.cfg = true → s.pending = .powerUp :: rest →
    ∃ db tx rx q,
      step s = .next { s with
        db := db, tx := tx, rx := rx, q := q, result := none, port := Port.idle, pending := rest } ∧
      db.length = s.cfg.numButtons ∧ (∀ d ∈ db, d.laValid = false ∧ d.qValid = false) ∧
      tx.cur = 0 ∧ tx.buf.length = s.cfg.txCap ∧
      rx.cur = 0 ∧ rx.buf.length = s.cfg.rxCap ∧ rx.remote = 0#32 ∧
      rx.cntBytes = 0 ∧ rx.cntReads = 0 ∧ rx.cntMalformed = 0 ∧ rx.cntResync = 0 ∧
      q.head = 0 ∧ q.tail = 0 ∧ q.slot.length = s.cfg.qSlots ∧ q.tc = 0 ∧ q.hc = 0 ∧ q.pSeen = 0 ∧ q.cSeen = 0

/-- The invariant of the whole machine holds when the block has been constructed, in every configuration that has a
meaning; the reset state is one such. -/
def Obligations.ConstructionMeetsTheInvariant : Prop :=
  (∀ (cfg : Config) (bind : Binding), configOk cfg = true → Inv (State.construct cfg bind)) ∧ Inv State.reset

/-- 10_state.md R27, R30 (first sentence), R34, R38 (the chain): every step of every kind keeps the invariants of DB, TX, RX
and Q. -/
def Obligations.EveryStepKeepsTheInvariant : Prop :=
  ∀ s t : State, Inv s → step s = .next t → Inv t

/-- 10_state.md R24, R36, R266: no step changes the configuration or the binding of units and ports to contexts. -/
def Obligations.NoStepChangesConfigurationOrBinding : Prop :=
  ∀ s t : State, step s = .next t → t.cfg = s.cfg ∧ t.bind = s.bind

/-! ### Whole-machine rules over every instruction -/

/-- 00_scope.md R2: no unit shares state with any other. An instruction of one unit leaves the state of every other unit,
the configuration, the binding and the inputs as they were, and only TX sends to SINK. -/
def Obligations.InstructionsTouchOnlyTheirUnit : Prop :=
  ∀ (i : Instr) (s t : State), exec i s = .next t →
    t.cfg = s.cfg ∧ t.bind = s.bind ∧ t.port = s.port ∧ t.pending = s.pending ∧
    (unitOf i ≠ .db → t.db = s.db) ∧ (unitOf i ≠ .tx → t.tx = s.tx ∧ t.wire = s.wire) ∧
    (unitOf i ≠ .rx → t.rx = s.rx) ∧ (unitOf i ≠ .q → t.q = s.q)

/-- 60_exceptions.md R255, R256: an instruction completes whenever the context may issue it and the agents keep their
contracts, from every state and with every operand; and every instruction that completes returns a result record. -/
def Obligations.EveryPermittedInstructionCompletes : Prop :=
  ∀ (i : Instr) (s : State), MayIssue s.bind s.port.ctx i →
    (i = .txPump → SinkKeepsContract s) → (i = .rxCycle → SourceKeepsContract s) →
    ∃ t r, exec i s = .next t ∧ t.result = some r ∧ r.status ∈ statusesOf i

/-- 00_scope.md R11: a status other than OK writes no state, but for the cursor view that R221 to R223 let a Q command that
reports FULL or EMPTY take. -/
def Obligations.FailureWritesNoState : Prop :=
  ∀ (i : Instr) (s t : State), exec i s = .next t →
    ∃ r, t.result = some r ∧ (r.status ≠ .ok →
      t = { s with result := some r } ∨
      (∃ v h, i = .qPush v ∧ t = { s with q := { s.q with pSeen := h }, result := some r }) ∨
      ((i = .qPop ∨ i = .qPeek) ∧ ∃ k, t = { s with q := { s.q with cSeen := k }, result := some r }))

/-- 20_memory.md R62, 10_state.md R36: a command from a context other than the owner of its unit, or other than the one
bound to its port, is refused, before any check of its own; CODEC has the same meaning from either context. -/
def Obligations.WrongContextIsRefused : Prop :=
  ∀ s : State,
    (s.port.ctx ≠ s.bind.dbOwner → ∀ b st now,
      exec (.dbSubmit b st now) s = .refused (.notOwner .db) ∧ exec (.dbRelease b now) s = .refused (.notOwner .db)) ∧
    (s.port.ctx ≠ s.bind.txOwner → (∀ snap, exec (.txMatrix snap) s = .refused (.notOwner .tx)) ∧
      (∀ cw, exec (.txEncoder cw) s = .refused (.notOwner .tx)) ∧ exec .txPump s = .refused (.notOwner .tx)) ∧
    (s.port.ctx ≠ s.bind.rxOwner → exec .rxCycle s = .refused (.notOwner .rx)) ∧
    (s.port.ctx ≠ s.bind.producer → ∀ v, exec (.qPush v) s = .refused .notProducer) ∧
    (s.port.ctx = s.bind.producer → exec .qPop s = .refused .notConsumer ∧ exec .qPeek s = .refused .notConsumer ∧
      exec .qAvail s = .refused .notConsumer) ∧
    (∀ (i : Instr) (p : Port), unitOf i = .codec → ∃ r,
      exec i s = .next { s with result := some r } ∧
      exec i { s with port := p } = .next { s with port := p, result := some r })

/-! ### CODEC -/

/-- 40_codec.md R121: BAD_INDEX from 31 on; below, the byte is {0b0, 0b0, PR, IDX[4:0]}; nothing else changes. -/
def Obligations.EnckeyPacksIndexAndPressed : Prop :=
  ∀ (s : State) (idx : Byte) (pr : Bool),
    (31 ≤ idx.toNat → exec (.codecEnckey idx pr) s = .next { s with result := some ⟨.badIndex, .none⟩ }) ∧
    (idx.toNat ≤ 30 → exec (.codecEnckey idx pr) s =
      .next { s with result := some ⟨.ok, .byte (0#2 ++ BitVec.ofBool pr ++ idx.extractLsb' 0 5)⟩ })

/-- 40_codec.md R122: 0xC0 is clockwise and 0x40 counter-clockwise; nothing else changes. -/
def Obligations.EncencGivesTheCanonicalByte : Prop :=
  ∀ s : State,
    exec (.codecEncenc true) s = .next { s with result := some ⟨.ok, .byte 0xC0#8⟩ } ∧
    exec (.codecEncenc false) s = .next { s with result := some ⟨.ok, .byte 0x40#8⟩ }

/-- 40_codec.md R123: the marker bit 6 first, with the direction in bit 7; then index 31 is ILLEGAL; then a key event with
bit 7 ignored; nothing else changes. -/
def Obligations.DecodeClassifiesTheByte : Prop :=
  ∀ (s : State) (x : Byte),
    (x.getLsbD 6 = true →
      exec (.codecDecode x) s = .next { s with result := some ⟨.ok, .encoder (x.getLsbD 7)⟩ }) ∧
    (x.getLsbD 6 = false → x.extractLsb' 0 5 = 31#5 →
      exec (.codecDecode x) s = .next { s with result := some ⟨.illegal, .none⟩ }) ∧
    (x.getLsbD 6 = false → x.extractLsb' 0 5 ≠ 31#5 →
      exec (.codecDecode x) s = .next { s with result := some ⟨.ok, .key (x.extractLsb' 0 5) (x.getLsbD 5)⟩ })

/-- 30_encoding.md R87: CODEC_DECODE of a byte does what the data pattern of that byte says, and each of the four patterns
completes with the record R87 gives it, its ignored bits playing no part. That a data pattern is run as an instruction of its
own is the model's choice (log 8). -/
def Obligations.CodecDecodeRunsTheBytesPattern : Prop :=
  ∀ s : State,
    (∀ x : Byte, exec (.codecDecode x) s = exec (decodeCodecByte x) s) ∧
    (∀ low, exec (.codecEncoderCw low) s = .next { s with result := some ⟨.ok, .encoder true⟩ }) ∧
    (∀ low, exec (.codecEncoderCcw low) s = .next { s with result := some ⟨.ok, .encoder false⟩ }) ∧
    (∀ bit7 bit5, exec (.codecIllegal bit7 bit5) s = .next { s with result := some ⟨.illegal, .none⟩ }) ∧
    (∀ bit7 pr idx, exec (.codecKey bit7 pr idx) s = .next { s with result := some ⟨.ok, .key idx pr⟩ })

/-- 40_codec.md R124: key events and encoder events round-trip, the key encoder is injective on what it accepts, and the 62
key bytes and 2 encoder bytes are all distinct. -/
def Obligations.CodecRoundTrip : Prop :=
  (∀ (s : State) (i : Byte) (p : Bool), i.toNat ≤ 30 → ∃ x,
    exec (.codecEnckey i p) s = .next { s with result := some ⟨.ok, .byte x⟩ } ∧
    exec (.codecDecode x) s = .next { s with result := some ⟨.ok, .key (i.setWidth 5) p⟩ }) ∧
  (∀ (s : State) (c : Bool), ∃ x,
    exec (.codecEncenc c) s = .next { s with result := some ⟨.ok, .byte x⟩ } ∧
    exec (.codecDecode x) s = .next { s with result := some ⟨.ok, .encoder c⟩ }) ∧
  (∀ (s : State) (i j : Byte) (p q : Bool), i.toNat ≤ 30 → j.toNat ≤ 30 →
    exec (.codecEnckey i p) s = exec (.codecEnckey j q) s → i = j ∧ p = q) ∧
  (∀ (s : State) (i : Byte) (p c d : Bool), i.toNat ≤ 30 →
    exec (.codecEnckey i p) s ≠ exec (.codecEncenc c) s ∧
    (exec (.codecEncenc c) s = exec (.codecEncenc d) s → c = d))

/-! ### DB -/

/-- 41_debounce.md R142: the first candidate of a button is accepted at once. That `q_state`, which the spec leaves
unspecified while `q_valid` is 0, keeps its old value is the model's choice (log 6). -/
def Obligations.SubmitAcceptsTheFirstCandidate : Prop :=
  ∀ (s : State) (b : Byte) (st : Bool) (now : Nat), s.port.ctx = s.bind.dbOwner → b.toNat < s.cfg.numButtons →
    (dbRecord s b).laValid = false →
    exec (.dbSubmit b st now) s = .next { s with
      db := s.db.set b.toNat ⟨true, now, false, (dbRecord s b).qState⟩
      result := some ⟨.ok, .accept st⟩ }

/-- 41_debounce.md R143: a NOW before the anchor is a fresh accept and clears the quarantine. That `q_state`, which the spec
leaves unspecified while `q_valid` is 0, keeps its old value is the model's choice (log 6). -/
def Obligations.SubmitAcceptsABackwardClock : Prop :=
  ∀ (s : State) (b : Byte) (st : Bool) (now : Nat), s.port.ctx = s.bind.dbOwner → b.toNat < s.cfg.numButtons →
    (dbRecord s b).laValid = true → now < (dbRecord s b).ts →
    exec (.dbSubmit b st now) s = .next { s with
      db := s.db.set b.toNat ⟨true, now, false, (dbRecord s b).qState⟩
      result := some ⟨.ok, .accept st⟩ }

/-- 41_debounce.md R144: inside the window the candidate is rejected; a repeat of the quarantined state writes nothing, any
other is quarantined and moves the anchor. -/
def Obligations.SubmitRejectsInsideTheWindow : Prop :=
  ∀ (s : State) (b : Byte) (st : Bool) (now : Nat), s.port.ctx = s.bind.dbOwner → b.toNat < s.cfg.numButtons →
    s.db.length = s.cfg.numButtons →
    (dbRecord s b).laValid = true → (dbRecord s b).ts ≤ now → now - (dbRecord s b).ts < s.cfg.window →
    ((dbRecord s b).qValid = true ∧ (dbRecord s b).qState = st →
      exec (.dbSubmit b st now) s = .next { s with result := some ⟨.ok, .reject⟩ }) ∧
    (¬((dbRecord s b).qValid = true ∧ (dbRecord s b).qState = st) →
      exec (.dbSubmit b st now) s = .next { s with
        db := s.db.set b.toNat ⟨true, now, true, st⟩
        result := some ⟨.ok, .reject⟩ })

/-- 41_debounce.md R145: from exactly WINDOW on the candidate is accepted, and a quarantined state is discarded. That
`q_state`, which the spec leaves unspecified while `q_valid` is 0, keeps its old value is the model's choice (log 6). -/
def Obligations.SubmitAcceptsAfterTheWindow : Prop :=
  ∀ (s : State) (b : Byte) (st : Bool) (now : Nat), s.port.ctx = s.bind.dbOwner → b.toNat < s.cfg.numButtons →
    (dbRecord s b).laValid = true → (dbRecord s b).ts ≤ now → s.cfg.window ≤ now - (dbRecord s b).ts →
    exec (.dbSubmit b st now) s = .next { s with
      db := s.db.set b.toNat ⟨true, now, false, (dbRecord s b).qState⟩
      result := some ⟨.ok, .accept st⟩ }

/-- 41_debounce.md R146, R147: the quarantined state is released when the window has re-elapsed or the clock went backwards;
otherwise nothing is written. That `q_state`, which the spec leaves unspecified while `q_valid` is 0, keeps its old value
after a release is the model's choice (log 6). -/
def Obligations.ReleaseSurfacesTheQuarantine : Prop :=
  ∀ (s : State) (b : Byte) (now : Nat), s.port.ctx = s.bind.dbOwner → s.db.length = s.cfg.numButtons →
    (s.cfg.numButtons ≤ b.toNat → exec (.dbRelease b now) s = .next { s with result := some ⟨.range, .none⟩ }) ∧
    (b.toNat < s.cfg.numButtons → (dbRecord s b).qValid = false →
      exec (.dbRelease b now) s = .next { s with result := some ⟨.ok, .noVerdict⟩ }) ∧
    (b.toNat < s.cfg.numButtons → (dbRecord s b).qValid = true →
      now < (dbRecord s b).ts ∨ ((dbRecord s b).ts ≤ now ∧ s.cfg.window ≤ now - (dbRecord s b).ts) →
      exec (.dbRelease b now) s = .next { s with
        db := s.db.set b.toNat ⟨(dbRecord s b).laValid, now, false, (dbRecord s b).qState⟩
        result := some ⟨.ok, .accept (dbRecord s b).qState⟩ }) ∧
    (b.toNat < s.cfg.numButtons → (dbRecord s b).qValid = true →
      (dbRecord s b).ts ≤ now → now - (dbRecord s b).ts < s.cfg.window →
      exec (.dbRelease b now) s = .next { s with result := some ⟨.ok, .noVerdict⟩ })

/-- 92_eei_decisions.md D10, 60_exceptions.md R257: an index at or above NUM_BUTTONS gives RANGE before any branch, and
nothing is written. -/
def Obligations.ButtonOutOfRangeWritesNothing : Prop :=
  ∀ (s : State) (b : Byte) (st : Bool) (now : Nat), s.port.ctx = s.bind.dbOwner → s.cfg.numButtons ≤ b.toNat →
    exec (.dbSubmit b st now) s = .next { s with result := some ⟨.range, .none⟩ } ∧
    exec (.dbRelease b now) s = .next { s with result := some ⟨.range, .none⟩ }

/-- 41_debounce.md R149 (a), (b), (d): after an acceptance at t1 the quarantine is empty; with the record untouched between,
a candidate inside the window of t1 is rejected and one at or after its end is accepted. -/
def Obligations.TwoCandidatesWithinTheWindowCollapse : Prop :=
  ∀ (s u v : State) (b : Byte) (x y : Bool) (t1 t2 : Nat), DbInv s →
    exec (.dbSubmit b x t1) s = .next u → u.result = some ⟨.ok, .accept x⟩ →
    dbRecord v b = dbRecord u b → v.cfg = u.cfg → v.port.ctx = v.bind.dbOwner → t1 ≤ t2 →
    (dbRecord u b).qValid = false ∧
    (t2 < t1 + s.cfg.window → ∃ w, exec (.dbSubmit b y t2) v = .next w ∧ w.result = some ⟨.ok, .reject⟩) ∧
    (t1 + s.cfg.window ≤ t2 → ∃ w, exec (.dbSubmit b y t2) v = .next w ∧ w.result = some ⟨.ok, .accept y⟩)

/-- 41_debounce.md R149 (c): a candidate rejected and newly quarantined at `now` stays hidden from every DB_RELEASE before
now + WINDOW, and the first one from then on returns it. -/
def Obligations.QuarantineSurfacesOnceTheWindowReElapses : Prop :=
  ∀ (s u v : State) (b : Byte) (x : Bool) (now later : Nat) (between : List Nat), DbInv s →
    exec (.dbSubmit b x now) s = .next u → u.result = some ⟨.ok, .reject⟩ →
    ¬((dbRecord s b).qValid = true ∧ (dbRecord s b).qState = x) →
    (∀ n ∈ between, now ≤ n ∧ n < now + s.cfg.window) → now + s.cfg.window ≤ later →
    dbRecord v b = dbRecord u b → v.cfg = u.cfg → v.db.length = u.db.length → v.port.ctx = v.bind.dbOwner →
    ∃ w z, releasesNone b between v = some w ∧ exec (.dbRelease b later) w = .next z ∧ z.result = some ⟨.ok, .accept x⟩

/-- 41_debounce.md R150: a DB command for button B writes only DB[B] and has no effect outside its records, and what it
answers and writes depends on no other record. -/
def Obligations.DbCommandsAreIsolatedToTheirButton : Prop :=
  ∀ (i : Instr) (b : Byte), (∃ st now, i = .dbSubmit b st now) ∨ (∃ now, i = .dbRelease b now) →
    (∀ s t : State, exec i s = .next t →
      t = { s with db := t.db, result := t.result } ∧ t.db.length = s.db.length ∧
      ∀ k : Nat, k ≠ b.toNat → t.db[k]? = s.db[k]?) ∧
    (∀ s s' t : State, s'.cfg = s.cfg → s'.bind = s.bind → s'.port.ctx = s.port.ctx → s.db.length = s.cfg.numButtons →
      s'.db.length = s.cfg.numButtons → dbRecord s' b = dbRecord s b → exec i s = .next t →
      ∃ t', exec i s' = .next t' ∧ t'.result = t.result ∧ dbRecord t' b = dbRecord t b) ∧
    (∀ s : State, s.port.ctx ≠ s.bind.dbOwner → exec i s = .refused (.notOwner .db))

/-! ### TX -/

/-- 42_link_tx.md R171, R172, 20_memory.md R55: TX_MATRIX appends the whole 5-byte frame, with the bits at and above NUM_CELLS
sent as 0, or reports FULL and writes nothing. That the bytes past the frame, which the spec leaves unspecified, are as before
is the model's choice (log 6). -/
def Obligations.TxMatrixQueuesTheWholeFrame : Prop :=
  ∀ (s : State) (snap f : BitVec 32), TxInv s → s.port.ctx = s.bind.txOwner →
    (∀ i, f.getLsbD i = (decide (i < s.cfg.numCells) && snap.getLsbD i)) →
    (s.cfg.txCap - s.tx.cur < 5 → exec (.txMatrix snap) s = .next { s with result := some ⟨.full, .none⟩ }) ∧
    (5 ≤ s.cfg.txCap - s.tx.cur → ∃ tx,
      exec (.txMatrix snap) s = .next { s with tx := tx, result := some ⟨.ok, .none⟩ } ∧
      tx.cur = s.tx.cur + 5 ∧ tx.buf.length = s.tx.buf.length ∧
      tx.buf.take tx.cur = s.tx.buf.take s.tx.cur ++
        [0xFF#8, f.extractLsb' 0 8, f.extractLsb' 8 8, f.extractLsb' 16 8, f.extractLsb' 24 8] ∧
      tx.buf.drop tx.cur = s.tx.buf.drop tx.cur)

/-- 42_link_tx.md R171, R173, 20_memory.md R55: TX_ENCODER appends the whole 2-byte frame, 0x00 for clockwise, or reports FULL
and writes nothing. That the bytes past the frame, which the spec leaves unspecified, are as before is the model's choice
(log 6). -/
def Obligations.TxEncoderQueuesTheWholeFrame : Prop :=
  ∀ (s : State) (cw : Bool), TxInv s → s.port.ctx = s.bind.txOwner →
    (s.cfg.txCap - s.tx.cur < 2 → exec (.txEncoder cw) s = .next { s with result := some ⟨.full, .none⟩ }) ∧
    (2 ≤ s.cfg.txCap - s.tx.cur → ∃ tx,
      exec (.txEncoder cw) s = .next { s with tx := tx, result := some ⟨.ok, .none⟩ } ∧
      tx.cur = s.tx.cur + 2 ∧ tx.buf.length = s.tx.buf.length ∧
      tx.buf.take tx.cur = s.tx.buf.take s.tx.cur ++ [0xFE#8, if cw then 0x00#8 else 0x01#8] ∧
      tx.buf.drop tx.cur = s.tx.buf.drop tx.cur)

/-- 42_link_tx.md R174 to R178: one pump asks SINK at most once. What SINK took goes onto the wire in order, and the rest
stays at the front in order; on WouldBlock and Error nothing changes; an answer over its contract is refused. -/
def Obligations.PumpSendsAPrefixOnce : Prop :=
  ∀ s : State, TxInv s → s.port.ctx = s.bind.txOwner →
    (s.tx.cur = 0 → exec .txPump s = .next { s with result := some ⟨.ok, .pumped 0 true⟩ }) ∧
    (0 < s.tx.cur →
      (∀ n, s.port.sink = .written n → n ≤ s.tx.cur → ∃ tx,
        exec .txPump s = .next { s with
          tx := tx, wire := s.wire ++ s.tx.buf.take n, result := some ⟨.ok, .pumped n true⟩ } ∧
        tx.cur = s.tx.cur - n ∧ tx.buf.length = s.tx.buf.length ∧
        tx.buf.take tx.cur = (s.tx.buf.take s.tx.cur).drop n) ∧
      (∀ n, s.port.sink = .written n → s.tx.cur < n → exec .txPump s = .refused .sinkContract) ∧
      (s.port.sink = .wouldBlock → exec .txPump s = .next { s with result := some ⟨.wouldBlock, .pumped 0 true⟩ }) ∧
      (s.port.sink = .error → exec .txPump s = .next { s with result := some ⟨.sinkError, .pumped 0 false⟩ }))

/-- 42_link_tx.md R179: over any run of commands, the bytes SINK has taken followed by the pending bytes are those at the
start followed by the frames of every successful TX_MATRIX and TX_ENCODER, in issue order. -/
def Obligations.NoByteOfTheStreamIsLost : Prop :=
  ∀ (start s : State) (log : List (Instr × Result)), Inv start → CommandRun start log s →
    s.wire ++ txPending s = start.wire ++ txPending start ++ log.flatMap (frameBy start.cfg)

/-- 10_state.md R30, read with 42_link_tx.md R172 to R176: the cursor stays in TXB, and the pending bytes are at most one
frame suffix, at the front, and then whole frames: so it is after construction, and every step keeps it. R30's sentence names
the whole frames first; that the suffix a partial pump left is at the front, as R30 also says, is how R176 leaves it, and
later frames go behind it (R172, R173). -/
def Obligations.PendingBytesStayFramed : Prop :=
  (∀ (cfg : Config) (bind : Binding), Framed cfg (txPending (State.construct cfg bind))) ∧
  ∀ s t : State, Inv s → Framed s.cfg (txPending s) → step s = .next t →
    t.tx.cur ≤ t.cfg.txCap ∧ Framed t.cfg (txPending t)

/-! ### RX -/

/-- 43_link_rx.md R192: zero bytes, WouldBlock and Error give NOTHING and write no state; more bytes than there is space is
refused. -/
def Obligations.RxWithoutDataWritesNothing : Prop :=
  ∀ s : State, s.port.ctx = s.bind.rxOwner →
    (s.port.source = .wouldBlock ∨ s.port.source = .error ∨ s.port.source = .read [] →
      exec .rxCycle s = .next { s with result := some ⟨.ok, .nothing⟩ }) ∧
    (∀ bytes, s.port.source = .read bytes → s.cfg.rxCap - s.rx.cur < bytes.length →
      exec .rxCycle s = .refused .sourceContract)

/-- 43_link_rx.md R194, with the read step of R192: an incomplete frame waits; the held bytes and the new ones are kept. -/
def Obligations.RxWaitsForAWholeFrame : Prop :=
  ∀ (s : State) (bytes : List Byte), RxInv s → s.port.ctx = s.bind.rxOwner →
    s.port.source = .read bytes → bytes ≠ [] → bytes.length ≤ s.cfg.rxCap - s.rx.cur →
    ((rxHeld s ++ bytes).head? = some 0xFF#8 ∧ s.rx.cur + bytes.length < 5) ∨
      ((rxHeld s ++ bytes).head? = some 0xFE#8 ∧ s.rx.cur + bytes.length < 2) →
    ∃ buf, buf.length = s.cfg.rxCap ∧ buf.take (s.rx.cur + bytes.length) = rxHeld s ++ bytes ∧
      exec .rxCycle s = .next { s with
        rx := { s.rx with
          buf := buf
          cur := s.rx.cur + bytes.length
          cntBytes := (s.rx.cntBytes + bytes.length) % 2 ^ s.cfg.cntBits
          cntReads := (s.rx.cntReads + 1) % 2 ^ s.cfg.cntBits }
        result := some ⟨.ok, .nothing⟩ }

/-- 43_link_rx.md R195, R200: a complete matrix frame is decoded little-endian with the unused high bits ignored, replaces
`remote`, is reported with the change list against the old `remote`, and the bytes after it are dropped. -/
def Obligations.RxDecodesAMatrixFrame : Prop :=
  ∀ (s : State) (bytes rest : List Byte) (b0 b1 b2 b3 : Byte) (new : Snapshot),
    RxInv s → s.port.ctx = s.bind.rxOwner →
    s.port.source = .read bytes → bytes ≠ [] → bytes.length ≤ s.cfg.rxCap - s.rx.cur →
    rxHeld s ++ bytes = 0xFF#8 :: b0 :: b1 :: b2 :: b3 :: rest →
    (∀ i, new.getLsbD i = (decide (i < s.cfg.numCells) && (b3 ++ b2 ++ b1 ++ b0 : BitVec 32).getLsbD i)) →
    ∃ buf, buf.length = s.cfg.rxCap ∧
      exec .rxCycle s = .next { s with
        rx := { s.rx with
          buf := buf
          cur := 0
          remote := new
          cntBytes := (s.rx.cntBytes + bytes.length) % 2 ^ s.cfg.cntBits
          cntReads := (s.rx.cntReads + 1) % 2 ^ s.cfg.cntBits }
        result := some ⟨.ok, .matrix new (changeList s.cfg new s.rx.remote)⟩ }

/-- 43_link_rx.md R196, R200: a complete encoder frame reports its direction, 0x00 clockwise and 0x01 counter-clockwise; any
other direction byte is counted and gives NOTHING; `remote` is not touched and the bytes after the frame are dropped. -/
def Obligations.RxDecodesAnEncoderFrame : Prop :=
  ∀ (s : State) (bytes rest : List Byte) (d : Byte), RxInv s → s.port.ctx = s.bind.rxOwner →
    s.port.source = .read bytes → bytes ≠ [] → bytes.length ≤ s.cfg.rxCap - s.rx.cur →
    rxHeld s ++ bytes = 0xFE#8 :: d :: rest →
    ∃ buf, buf.length = s.cfg.rxCap ∧
      exec .rxCycle s = .next { s with
        rx := { s.rx with
          buf := buf
          cur := 0
          cntBytes := (s.rx.cntBytes + bytes.length) % 2 ^ s.cfg.cntBits
          cntReads := (s.rx.cntReads + 1) % 2 ^ s.cfg.cntBits
          cntMalformed := if d = 0x00#8 ∨ d = 0x01#8 then s.rx.cntMalformed
                          else (s.rx.cntMalformed + 1) % 2 ^ s.cfg.cntBits }
        result := some ⟨.ok, if d = 0x00#8 then .encoder true else if d = 0x01#8 then .encoder false else .nothing⟩ }

/-- 43_link_rx.md R197: an unrecognized tag is counted once; the bytes before the first tag are dropped and the rest is
interpreted as an aligned stream; with no tag all are dropped. The bytes and the read are counted as R192 says. -/
def Obligations.RxResyncsToTheFirstTag : Prop :=
  ∀ (s : State) (bytes junk tail : List Byte), RxInv s → 5 ≤ s.cfg.rxCap → s.port.ctx = s.bind.rxOwner →
    s.port.source = .read bytes → bytes ≠ [] → bytes.length ≤ s.cfg.rxCap - s.rx.cur →
    rxHeld s ++ bytes = junk ++ tail → junk ≠ [] → (∀ x ∈ junk, x ≠ 0xFF#8 ∧ x ≠ 0xFE#8) →
    (tail = [] ∨ tail.head? = some 0xFF#8 ∨ tail.head? = some 0xFE#8) →
    ∃ rx, exec .rxCycle s = .next { s with
        rx := rx, result := some ⟨.ok, (readAligned s.cfg s.rx.remote tail).output⟩ } ∧
      rx.buf.length = s.cfg.rxCap ∧
      rx.cur = (readAligned s.cfg s.rx.remote tail).kept.length ∧
      rx.buf.take rx.cur = (readAligned s.cfg s.rx.remote tail).kept ∧
      rx.remote = (readAligned s.cfg s.rx.remote tail).remote ∧
      rx.cntBytes = (s.rx.cntBytes + bytes.length) % 2 ^ s.cfg.cntBits ∧
      rx.cntReads = (s.rx.cntReads + 1) % 2 ^ s.cfg.cntBits ∧
      rx.cntMalformed = (s.rx.cntMalformed + (readAligned s.cfg s.rx.remote tail).malformed) % 2 ^ s.cfg.cntBits ∧
      rx.cntResync = (s.rx.cntResync + 1) % 2 ^ s.cfg.cntBits

/-- 43_link_rx.md R191 to R200: on every read that delivers bytes, RX_CYCLE's array procedure does to the held bytes,
`remote`, the four counters and the result exactly what the list-level account `readStream` says of the held bytes and the
new ones; in particular at most one resync is counted (R198). -/
def Obligations.RxCycleRefinesTheStreamReading : Prop :=
  ∀ (s : State) (bytes : List Byte), RxInv s → 5 ≤ s.cfg.rxCap → s.port.ctx = s.bind.rxOwner →
    s.port.source = .read bytes → bytes ≠ [] → bytes.length ≤ s.cfg.rxCap - s.rx.cur →
    let r := readStream s.cfg s.rx.remote (rxHeld s ++ bytes)
    ∃ rx, exec .rxCycle s = .next { s with rx := rx, result := some ⟨.ok, r.output⟩ } ∧
      rx.buf.length = s.cfg.rxCap ∧ rx.cur = r.kept.length ∧ rx.buf.take rx.cur = r.kept ∧ rx.remote = r.remote ∧
      rx.cntBytes = (s.rx.cntBytes + bytes.length) % 2 ^ s.cfg.cntBits ∧
      rx.cntReads = (s.rx.cntReads + 1) % 2 ^ s.cfg.cntBits ∧
      rx.cntMalformed = (s.rx.cntMalformed + r.malformed) % 2 ^ s.cfg.cntBits ∧
      rx.cntResync = (s.rx.cntResync + r.resyncs) % 2 ^ s.cfg.cntBits

/-- 30_encoding.md R90 to R93, 43_link_rx.md R192, R193: on a read that delivers bytes, RX_CYCLE does what the wire pattern at
offset 0 says, on the state after the read: the new bytes held behind the old ones, the two read counters grown, the rest as
before. That a data pattern is run as an instruction of its own is the model's choice (log 8). -/
def Obligations.RxCycleRunsTheWirePattern : Prop :=
  ∀ (s : State) (bytes : List Byte), RxInv s → 5 ≤ s.cfg.rxCap → s.port.ctx = s.bind.rxOwner →
    s.port.source = .read bytes → bytes ≠ [] → bytes.length ≤ s.cfg.rxCap - s.rx.cur →
    let u := s.withRx (s.rx.received s.cfg bytes)
    u = { s with rx := u.rx } ∧ u.rx.buf.length = s.cfg.rxCap ∧ u.rx.cur = s.rx.cur + bytes.length ∧
      rxHeld u = rxHeld s ++ bytes ∧ u.rx.remote = s.rx.remote ∧
      u.rx.cntBytes = (s.rx.cntBytes + bytes.length) % 2 ^ s.cfg.cntBits ∧
      u.rx.cntReads = (s.rx.cntReads + 1) % 2 ^ s.cfg.cntBits ∧
      u.rx.cntMalformed = s.rx.cntMalformed ∧ u.rx.cntResync = s.rx.cntResync ∧
      (∀ b0 b1 b2 b3 rest, rxHeld u = 0xFF#8 :: b0 :: b1 :: b2 :: b3 :: rest →
        exec .rxCycle s = exec (.wireMatrixFrame (b3 ++ b2 ++ b1 ++ b0)) u) ∧
      (∀ d rest, rxHeld u = 0xFE#8 :: d :: rest →
        exec .rxCycle s = exec (.wireEncoderFrame d) u ∧ exec .rxCycle s = exec (decodeWireDir d) u) ∧
      (∀ x rest, rxHeld u = x :: rest → x ≠ 0xFF#8 → x ≠ 0xFE#8 →
        exec .rxCycle s = exec (.wireUnrecognizedTag x) u)

/-- 43_link_rx.md R195, R196: what each complete wire frame and each direction byte does to RX. That the bytes of RXB, all
unspecified at cursor 0, are as before is the model's choice (log 6), and so is that a data pattern is run as an instruction of
its own, in any state and by any context (log 8). -/
def Obligations.WireFramesUpdateOnlyRx : Prop :=
  ∀ (s : State),
    (∀ (f : BitVec 32) (new : Snapshot), (∀ i, new.getLsbD i = (decide (i < s.cfg.numCells) && f.getLsbD i)) →
      exec (.wireMatrixFrame f) s = .next { s with
        rx := { s.rx with remote := new, cur := 0 }
        result := some ⟨.ok, .matrix new (changeList s.cfg new s.rx.remote)⟩ }) ∧
    (∀ d : Byte, exec (.wireEncoderFrame d) s = exec (decodeWireDir d) s) ∧
    exec .wireDirCw s = .next { s with rx := { s.rx with cur := 0 }, result := some ⟨.ok, .encoder true⟩ } ∧
    exec .wireDirCcw s = .next { s with rx := { s.rx with cur := 0 }, result := some ⟨.ok, .encoder false⟩ } ∧
    (∀ d : Byte, exec (.wireDirMalformed d) s = .next { s with
      rx := { s.rx with cur := 0, cntMalformed := (s.rx.cntMalformed + 1) % 2 ^ s.cfg.cntBits }
      result := some ⟨.ok, .nothing⟩ })

/-- 43_link_rx.md R197 for the pattern row: with an unrecognized tag at offset 0, the scan from offset 1 counts one resync,
keeps the bytes from the first tag on and interprets them, or drops all; a malformed frame among them is counted, and the two
read counters are as before. That the pattern is run as an instruction of its own is the model's choice (log 8). -/
def Obligations.UnrecognizedTagScansForATag : Prop :=
  ∀ (s : State) (tag : Byte) (junk tail : List Byte), s.rx.cur ≤ s.rx.buf.length →
    rxHeld s = tag :: junk ++ tail → (∀ x ∈ junk, x ≠ 0xFF#8 ∧ x ≠ 0xFE#8) →
    (tail = [] ∨ tail.head? = some 0xFF#8 ∨ tail.head? = some 0xFE#8) →
    ∃ rx, exec (.wireUnrecognizedTag tag) s = .next { s with
        rx := rx, result := some ⟨.ok, (readAligned s.cfg s.rx.remote tail).output⟩ } ∧
      rx.cur = (readAligned s.cfg s.rx.remote tail).kept.length ∧
      rx.buf.take rx.cur = (readAligned s.cfg s.rx.remote tail).kept ∧
      rx.remote = (readAligned s.cfg s.rx.remote tail).remote ∧
      rx.buf.length = s.rx.buf.length ∧ rx.cntBytes = s.rx.cntBytes ∧ rx.cntReads = s.rx.cntReads ∧
      rx.cntMalformed = (if (readAligned s.cfg s.rx.remote tail).malformed = 0 then s.rx.cntMalformed
                         else (s.rx.cntMalformed + (readAligned s.cfg s.rx.remote tail).malformed) % 2 ^ s.cfg.cntBits) ∧
      rx.cntResync = (s.rx.cntResync + 1) % 2 ^ s.cfg.cntBits

/-- 43_link_rx.md R199: the change list holds, in ascending cell index, the first min(D, MAX_CHANGES) cells where the new
snapshot and the old `remote` differ, D being their number, each with its row, column and new state. -/
def Obligations.ChangeListIsTheFirstDifferingCells : Prop :=
  ∀ (cfg : Config) (new old : Snapshot),
    ∃ cells : List Nat,
      cells.length = min ((List.range cfg.numCells).countP (fun i => new.getLsbD i != old.getLsbD i)) cfg.maxChanges ∧
      cells.Pairwise (· < ·) ∧
      (∀ i ∈ cells, i < cfg.numCells ∧ new.getLsbD i ≠ old.getLsbD i ∧
        ∀ j < i, new.getLsbD j ≠ old.getLsbD j → j ∈ cells) ∧
      changeList cfg new old = cells.map (fun i => ⟨i / cfg.numCols, i % cfg.numCols, new.getLsbD i⟩)

/-- 10_state.md R34 (43_link_rx.md R201): after every RX_CYCLE RXB is empty or holds the start of one frame, so at least
RXCAP − 4 ≥ 1 bytes of space remain. -/
def Obligations.RxNeverFillsUp : Prop :=
  ∀ s t : State, RxInv s → 5 ≤ s.cfg.rxCap → exec .rxCycle s = .next t →
    (t.rx.cur = 0 ∨ (t.rx.buf.getD 0 0#8 = 0xFF#8 ∧ 1 ≤ t.rx.cur ∧ t.rx.cur ≤ 4) ∨
      (t.rx.buf.getD 0 0#8 = 0xFE#8 ∧ t.rx.cur = 1)) ∧
    1 ≤ t.cfg.rxCap - 4 ∧ t.cfg.rxCap - 4 ≤ t.cfg.rxCap - t.rx.cur

/-- 10_state.md R32: `remote` is written only by a successful matrix frame, which reports what it wrote. -/
def Obligations.RemoteIsWrittenOnlyByAMatrixFrame : Prop :=
  ∀ (i : Instr) (s t : State), exec i s = .next t → t.rx.remote ≠ s.rx.remote →
    unitOf i = .rx ∧ ∃ changes, t.result = some ⟨.ok, .matrix t.rx.remote changes⟩

/-! ### Q -/

/-- 44_spsc_queue.md R221, with the view h_obs of 20_memory.md R57, drawn or, where none is written, current
(30_encoding.md R98): FULL exactly when TC − h_obs = N − 1, and then only `p_seen` may advance; otherwise V is stored at TAIL
and TAIL moves on. -/
def Obligations.PushStoresAtTheTail : Prop :=
  ∀ (s : State) (v h : Nat), QInv s → 2 ≤ s.cfg.qSlots → s.port.ctx = s.bind.producer →
    (s.port.view = some h ∨ (s.port.view = none ∧ h = s.q.hc)) → s.q.pSeen ≤ h → h ≤ s.q.hc →
    (s.q.tc - h = s.cfg.qSlots - 1 →
      exec (.qPush v) s = .next { s with q := { s.q with pSeen := h }, result := some ⟨.full, .none⟩ }) ∧
    (s.q.tc - h ≠ s.cfg.qSlots - 1 →
      exec (.qPush v) s = .next { s with
        q := { s.q with
          pSeen := h
          slot := s.q.slot.set s.q.tail v
          tail := (s.q.tail + 1) % s.cfg.qSlots
          tc := s.q.tc + 1 }
        result := some ⟨.ok, .none⟩ })

/-- 44_spsc_queue.md R222, with the view t_obs of 20_memory.md R57, drawn or, where none is written, current
(30_encoding.md R98): EMPTY exactly when t_obs = HC, and then only `c_seen` may advance; otherwise SLOT[HEAD] is returned and
HEAD moves on. -/
def Obligations.PopTakesTheHead : Prop :=
  ∀ (s : State) (k : Nat), QInv s → 2 ≤ s.cfg.qSlots → s.port.ctx = s.bind.consumer →
    (s.port.view = some k ∨ (s.port.view = none ∧ k = s.q.tc)) → s.q.cSeen ≤ k → k ≤ s.q.tc →
    (k = s.q.hc →
      exec .qPop s = .next { s with q := { s.q with cSeen := k }, result := some ⟨.empty, .none⟩ }) ∧
    (k ≠ s.q.hc →
      exec .qPop s = .next { s with
        q := { s.q with cSeen := k, head := (s.q.head + 1) % s.cfg.qSlots, hc := s.q.hc + 1 }
        result := some ⟨.ok, .value (s.q.slot.getD s.q.head 0)⟩ })

/-- 44_spsc_queue.md R223, with the view t_obs, drawn or, where none is written, current
(30_encoding.md R98): as Q_POP, without moving HEAD. -/
def Obligations.PeekLeavesTheHead : Prop :=
  ∀ (s : State) (k : Nat), QInv s → 2 ≤ s.cfg.qSlots → s.port.ctx = s.bind.consumer →
    (s.port.view = some k ∨ (s.port.view = none ∧ k = s.q.tc)) → s.q.cSeen ≤ k → k ≤ s.q.tc →
    (k = s.q.hc →
      exec .qPeek s = .next { s with q := { s.q with cSeen := k }, result := some ⟨.empty, .none⟩ }) ∧
    (k ≠ s.q.hc →
      exec .qPeek s = .next { s with
        q := { s.q with cSeen := k }, result := some ⟨.ok, .value (s.q.slot.getD s.q.head 0)⟩ })

/-- 44_spsc_queue.md R224, with the view t_obs, drawn or, where none is written, current
(30_encoding.md R98): the count is t_obs − HC, and no state is written, not even `c_seen`. -/
def Obligations.AvailCountsWithoutWriting : Prop :=
  ∀ (s : State) (k : Nat), QInv s → 2 ≤ s.cfg.qSlots → s.port.ctx = s.bind.consumer →
    (s.port.view = some k ∨ (s.port.view = none ∧ k = s.q.tc)) → s.q.cSeen ≤ k → k ≤ s.q.tc →
    exec .qAvail s = .next { s with result := some ⟨.ok, .count (k - s.q.hc)⟩ } ∧
    s.q.cSeen - s.q.hc ≤ k - s.q.hc ∧ k - s.q.hc ≤ s.q.tc - s.q.hc ∧ s.q.tc - s.q.hc ≤ s.cfg.qSlots - 1

/-- 44_spsc_queue.md R221, R222, R225 (corner cases): with the current view FULL and EMPTY are exact. -/
def Obligations.CurrentViewsAreExact : Prop :=
  ∀ (s : State) (v : Nat), QInv s → 2 ≤ s.cfg.qSlots → s.port.view = none →
    (s.port.ctx = s.bind.producer → ∃ t, exec (.qPush v) s = .next t ∧
      (t.result = some ⟨.full, .none⟩ ↔ (queued s).length = s.cfg.qSlots - 1) ∧
      (t.result = some ⟨.ok, .none⟩ ↔ (queued s).length < s.cfg.qSlots - 1)) ∧
    (s.port.ctx = s.bind.consumer →
      (∃ t, exec .qPop s = .next t ∧ (t.result = some ⟨.empty, .none⟩ ↔ queued s = [])) ∧
      (∃ t, exec .qPeek s = .next t ∧ (t.result = some ⟨.empty, .none⟩ ↔ queued s = [])) ∧
      (∃ t, exec .qAvail s = .next t ∧ t.result = some ⟨.ok, .count (queued s).length⟩))

/-- 44_spsc_queue.md R226, 20_memory.md R58, R59: whatever the view, a push that succeeds appends its value to the
unconsumed elements and one that reports FULL leaves them; a pop that succeeds returns and removes the oldest; a peek
returns the oldest and removes nothing; EMPTY removes nothing, and a drained queue always reports it. -/
def Obligations.QueueHoldsWhatWasPushedAndNotPopped : Prop :=
  ∀ s t : State, QInv s → 2 ≤ s.cfg.qSlots →
    (∀ v, exec (.qPush v) s = .next t →
      (t.result = some ⟨.ok, .none⟩ ∧ queued t = queued s ++ [v]) ∨
      (t.result = some ⟨.full, .none⟩ ∧ queued t = queued s)) ∧
    (exec .qPop s = .next t →
      (∃ v, t.result = some ⟨.ok, .value v⟩ ∧ queued s = v :: queued t) ∨
      (t.result = some ⟨.empty, .none⟩ ∧ queued t = queued s)) ∧
    (exec .qPeek s = .next t → queued t = queued s ∧
      ((∃ v, t.result = some ⟨.ok, .value v⟩ ∧ (queued s).head? = some v) ∨ t.result = some ⟨.empty, .none⟩)) ∧
    (queued s = [] → exec .qPop s = .next t ∨ exec .qPeek s = .next t → t.result = some ⟨.empty, .none⟩)

/-- 44_spsc_queue.md R223 (corner case): after a Q_PEEK that returned v, a Q_POP returns the same v, whatever its view. -/
def Obligations.PopAfterPeekReturnsThePeekedValue : Prop :=
  ∀ (s t u : State) (v : Nat), QInv s → 2 ≤ s.cfg.qSlots → exec .qPeek s = .next t → t.result = some ⟨.ok, .value v⟩ →
    u.q = t.q → u.cfg = t.cfg → u.port.ctx = u.bind.consumer →
    ∃ w, exec .qPop u = .next w ∧ w.result = some ⟨.ok, .value v⟩

/-- 10_state.md R38, 20_memory.md R57: every Q command, with every draw, keeps the chain
p_seen ≤ HC ≤ c_seen ≤ TC ≤ p_seen + N − 1 and the cursors, and neither port's view ever goes back. -/
def Obligations.QueueChainIsKept : Prop :=
  ∀ (i : Instr) (s t : State), QInv s → 2 ≤ s.cfg.qSlots → i.wellFormed s.cfg = true → exec i s = .next t →
    QInv t ∧ s.q.pSeen ≤ t.q.pSeen ∧ s.q.cSeen ≤ t.q.cSeen ∧ s.q.hc ≤ t.q.hc ∧ s.q.tc ≤ t.q.tc

/-- 20_memory.md R60: over any run of commands, from any state that meets the invariant, the elements queued at the start
followed by the values accepted are the values returned followed by the elements still queued; from a queue just
constructed the values returned are therefore a prefix of the values accepted, with no loss and no duplication. -/
def Obligations.QueueIsFirstInFirstOut : Prop :=
  ∀ (start s : State) (log : List (Instr × Result)), Inv start → CommandRun start log s →
    queued start ++ log.filterMap pushedBy = log.filterMap poppedBy ++ queued s ∧
    (queued start = [] → log.filterMap poppedBy <+: log.filterMap pushedBy)

/-- 44_spsc_queue.md R225: Q holds at most N − 1 elements; and from an empty queue, with the producer's view current at every
push, exactly N − 1 consecutive pushes succeed and the next one returns FULL. -/
def Obligations.CapacityIsOneLessThanTheSlots : Prop :=
  ∀ (s : State) (vs : List Nat) (v : Nat), QInv s → 2 ≤ s.cfg.qSlots →
    (queued s).length ≤ s.cfg.qSlots - 1 ∧
    (queued s = [] → vs.length = s.cfg.qSlots - 1 → (∀ x ∈ vs, x < 2 ^ s.cfg.qWidth) →
      ∃ t u, pushAll vs s = some t ∧ queued t = vs ∧
        exec (.qPush v) (t.withPort { t.port with ctx := t.bind.producer, view := none }) = .next u ∧
        u.result = some ⟨.full, .none⟩ ∧ queued u = vs)

/-- 44_spsc_queue.md R227: pushing and popping any number of elements one at a time, alternately, reproduces the pushed
sequence, and each cursor moves one slot a time, cyclically. -/
def Obligations.WrapAroundReproducesTheSequence : Prop :=
  ∀ (s : State) (vs : List Nat), QInv s → 2 ≤ s.cfg.qSlots → queued s = [] → (∀ x ∈ vs, x < 2 ^ s.cfg.qWidth) →
    ∃ t, pushPopAll vs s = some (vs, t) ∧ queued t = [] ∧
      t.q.tail = (s.q.tail + vs.length) % s.cfg.qSlots ∧ t.q.head = (s.q.head + vs.length) % s.cfg.qSlots
end

