-- ==== Sys2Proof/Laws/State.lean ====
section
/-! SUPPORT. One lemma for each field and each update of State, so that no proof unfolds an update. -/

namespace Sys2Proof.Machine

variable (s : State)

/-! ### withDb -/

@[simp] theorem State.withDb_cfg (x : List DbRecord) : (s.withDb x).cfg = s.cfg := rfl
@[simp] theorem State.withDb_bind (x : List DbRecord) : (s.withDb x).bind = s.bind := rfl
@[simp] theorem State.withDb_db (x : List DbRecord) : (s.withDb x).db = x := rfl
@[simp] theorem State.withDb_tx (x : List DbRecord) : (s.withDb x).tx = s.tx := rfl
@[simp] theorem State.withDb_rx (x : List DbRecord) : (s.withDb x).rx = s.rx := rfl
@[simp] theorem State.withDb_q (x : List DbRecord) : (s.withDb x).q = s.q := rfl
@[simp] theorem State.withDb_wire (x : List DbRecord) : (s.withDb x).wire = s.wire := rfl
@[simp] theorem State.withDb_result (x : List DbRecord) : (s.withDb x).result = s.result := rfl
@[simp] theorem State.withDb_port (x : List DbRecord) : (s.withDb x).port = s.port := rfl
@[simp] theorem State.withDb_pending (x : List DbRecord) : (s.withDb x).pending = s.pending := rfl

/-! ### withTx -/

@[simp] theorem State.withTx_cfg (x : TxUnit) : (s.withTx x).cfg = s.cfg := rfl
@[simp] theorem State.withTx_bind (x : TxUnit) : (s.withTx x).bind = s.bind := rfl
@[simp] theorem State.withTx_db (x : TxUnit) : (s.withTx x).db = s.db := rfl
@[simp] theorem State.withTx_tx (x : TxUnit) : (s.withTx x).tx = x := rfl
@[simp] theorem State.withTx_rx (x : TxUnit) : (s.withTx x).rx = s.rx := rfl
@[simp] theorem State.withTx_q (x : TxUnit) : (s.withTx x).q = s.q := rfl
@[simp] theorem State.withTx_wire (x : TxUnit) : (s.withTx x).wire = s.wire := rfl
@[simp] theorem State.withTx_result (x : TxUnit) : (s.withTx x).result = s.result := rfl
@[simp] theorem State.withTx_port (x : TxUnit) : (s.withTx x).port = s.port := rfl
@[simp] theorem State.withTx_pending (x : TxUnit) : (s.withTx x).pending = s.pending := rfl

/-! ### withRx -/

@[simp] theorem State.withRx_cfg (x : RxUnit) : (s.withRx x).cfg = s.cfg := rfl
@[simp] theorem State.withRx_bind (x : RxUnit) : (s.withRx x).bind = s.bind := rfl
@[simp] theorem State.withRx_db (x : RxUnit) : (s.withRx x).db = s.db := rfl
@[simp] theorem State.withRx_tx (x : RxUnit) : (s.withRx x).tx = s.tx := rfl
@[simp] theorem State.withRx_rx (x : RxUnit) : (s.withRx x).rx = x := rfl
@[simp] theorem State.withRx_q (x : RxUnit) : (s.withRx x).q = s.q := rfl
@[simp] theorem State.withRx_wire (x : RxUnit) : (s.withRx x).wire = s.wire := rfl
@[simp] theorem State.withRx_result (x : RxUnit) : (s.withRx x).result = s.result := rfl
@[simp] theorem State.withRx_port (x : RxUnit) : (s.withRx x).port = s.port := rfl
@[simp] theorem State.withRx_pending (x : RxUnit) : (s.withRx x).pending = s.pending := rfl

/-! ### withQ -/

@[simp] theorem State.withQ_cfg (x : QUnit) : (s.withQ x).cfg = s.cfg := rfl
@[simp] theorem State.withQ_bind (x : QUnit) : (s.withQ x).bind = s.bind := rfl
@[simp] theorem State.withQ_db (x : QUnit) : (s.withQ x).db = s.db := rfl
@[simp] theorem State.withQ_tx (x : QUnit) : (s.withQ x).tx = s.tx := rfl
@[simp] theorem State.withQ_rx (x : QUnit) : (s.withQ x).rx = s.rx := rfl
@[simp] theorem State.withQ_q (x : QUnit) : (s.withQ x).q = x := rfl
@[simp] theorem State.withQ_wire (x : QUnit) : (s.withQ x).wire = s.wire := rfl
@[simp] theorem State.withQ_result (x : QUnit) : (s.withQ x).result = s.result := rfl
@[simp] theorem State.withQ_port (x : QUnit) : (s.withQ x).port = s.port := rfl
@[simp] theorem State.withQ_pending (x : QUnit) : (s.withQ x).pending = s.pending := rfl

/-! ### sends -/

@[simp] theorem State.sends_cfg (x : List Byte) : (s.sends x).cfg = s.cfg := rfl
@[simp] theorem State.sends_bind (x : List Byte) : (s.sends x).bind = s.bind := rfl
@[simp] theorem State.sends_db (x : List Byte) : (s.sends x).db = s.db := rfl
@[simp] theorem State.sends_tx (x : List Byte) : (s.sends x).tx = s.tx := rfl
@[simp] theorem State.sends_rx (x : List Byte) : (s.sends x).rx = s.rx := rfl
@[simp] theorem State.sends_q (x : List Byte) : (s.sends x).q = s.q := rfl
@[simp] theorem State.sends_wire (x : List Byte) : (s.sends x).wire = s.wire ++ x := rfl
@[simp] theorem State.sends_result (x : List Byte) : (s.sends x).result = s.result := rfl
@[simp] theorem State.sends_port (x : List Byte) : (s.sends x).port = s.port := rfl
@[simp] theorem State.sends_pending (x : List Byte) : (s.sends x).pending = s.pending := rfl

/-! ### returns -/

@[simp] theorem State.returns_cfg (x : Result) : (s.returns x).cfg = s.cfg := rfl
@[simp] theorem State.returns_bind (x : Result) : (s.returns x).bind = s.bind := rfl
@[simp] theorem State.returns_db (x : Result) : (s.returns x).db = s.db := rfl
@[simp] theorem State.returns_tx (x : Result) : (s.returns x).tx = s.tx := rfl
@[simp] theorem State.returns_rx (x : Result) : (s.returns x).rx = s.rx := rfl
@[simp] theorem State.returns_q (x : Result) : (s.returns x).q = s.q := rfl
@[simp] theorem State.returns_wire (x : Result) : (s.returns x).wire = s.wire := rfl
@[simp] theorem State.returns_result (x : Result) : (s.returns x).result = some x := rfl
@[simp] theorem State.returns_port (x : Result) : (s.returns x).port = s.port := rfl
@[simp] theorem State.returns_pending (x : Result) : (s.returns x).pending = s.pending := rfl

/-! ### accepts -/

@[simp] theorem State.accepts_cfg (c : Command) (rest : List Stimulus) : (s.accepts c rest).cfg = s.cfg := rfl
@[simp] theorem State.accepts_bind (c : Command) (rest : List Stimulus) : (s.accepts c rest).bind = s.bind := rfl
@[simp] theorem State.accepts_db (c : Command) (rest : List Stimulus) : (s.accepts c rest).db = s.db := rfl
@[simp] theorem State.accepts_tx (c : Command) (rest : List Stimulus) : (s.accepts c rest).tx = s.tx := rfl
@[simp] theorem State.accepts_rx (c : Command) (rest : List Stimulus) : (s.accepts c rest).rx = s.rx := rfl
@[simp] theorem State.accepts_q (c : Command) (rest : List Stimulus) : (s.accepts c rest).q = s.q := rfl
@[simp] theorem State.accepts_wire (c : Command) (rest : List Stimulus) : (s.accepts c rest).wire = s.wire := rfl
@[simp] theorem State.accepts_result (c : Command) (rest : List Stimulus) : (s.accepts c rest).result = s.result := rfl
@[simp] theorem State.accepts_port (c : Command) (rest : List Stimulus) : (s.accepts c rest).port = c.port := rfl
@[simp] theorem State.accepts_pending (c : Command) (rest : List Stimulus) : (s.accepts c rest).pending = rest := rfl

/-! ### continues -/

@[simp] theorem State.continues_cfg (rest : List Stimulus) : (s.continues rest).cfg = s.cfg := rfl
@[simp] theorem State.continues_bind (rest : List Stimulus) : (s.continues rest).bind = s.bind := rfl
@[simp] theorem State.continues_db (rest : List Stimulus) : (s.continues rest).db = s.db := rfl
@[simp] theorem State.continues_tx (rest : List Stimulus) : (s.continues rest).tx = s.tx := rfl
@[simp] theorem State.continues_rx (rest : List Stimulus) : (s.continues rest).rx = s.rx := rfl
@[simp] theorem State.continues_q (rest : List Stimulus) : (s.continues rest).q = s.q := rfl
@[simp] theorem State.continues_wire (rest : List Stimulus) : (s.continues rest).wire = s.wire := rfl
@[simp] theorem State.continues_result (rest : List Stimulus) : (s.continues rest).result = s.result := rfl
@[simp] theorem State.continues_port (rest : List Stimulus) : (s.continues rest).port = s.port := rfl
@[simp] theorem State.continues_pending (rest : List Stimulus) : (s.continues rest).pending = rest := rfl

/-! ### withPort -/

@[simp] theorem State.withPort_cfg (x : Port) : (s.withPort x).cfg = s.cfg := rfl
@[simp] theorem State.withPort_bind (x : Port) : (s.withPort x).bind = s.bind := rfl
@[simp] theorem State.withPort_db (x : Port) : (s.withPort x).db = s.db := rfl
@[simp] theorem State.withPort_tx (x : Port) : (s.withPort x).tx = s.tx := rfl
@[simp] theorem State.withPort_rx (x : Port) : (s.withPort x).rx = s.rx := rfl
@[simp] theorem State.withPort_q (x : Port) : (s.withPort x).q = s.q := rfl
@[simp] theorem State.withPort_wire (x : Port) : (s.withPort x).wire = s.wire := rfl
@[simp] theorem State.withPort_result (x : Port) : (s.withPort x).result = s.result := rfl
@[simp] theorem State.withPort_port (x : Port) : (s.withPort x).port = x := rfl
@[simp] theorem State.withPort_pending (x : Port) : (s.withPort x).pending = s.pending := rfl

/-! ### powerUp -/

@[simp] theorem powerUp_cfg : (powerUp s).cfg = s.cfg := rfl
@[simp] theorem powerUp_bind : (powerUp s).bind = s.bind := rfl
@[simp] theorem powerUp_db : (powerUp s).db = dbConstructed s.cfg := rfl
@[simp] theorem powerUp_tx : (powerUp s).tx = TxUnit.constructed s.cfg := rfl
@[simp] theorem powerUp_rx : (powerUp s).rx = RxUnit.constructed s.cfg := rfl
@[simp] theorem powerUp_q : (powerUp s).q = QUnit.constructed s.cfg := rfl
@[simp] theorem powerUp_wire : (powerUp s).wire = s.wire := rfl
@[simp] theorem powerUp_result : (powerUp s).result = none := rfl
@[simp] theorem powerUp_port : (powerUp s).port = Port.idle := rfl
@[simp] theorem powerUp_pending : (powerUp s).pending = s.pending := rfl

end Sys2Proof.Machine
end

