-- ==== Sys2Proof/Laws/Ops.lean ====
section
/-! SUPPORT. What the shared operations do: ending a command, the context check, arrays, counters, views, fetching. -/

namespace Sys2Proof.Machine

/-! ### Ending a command -/

@[simp] theorem complete_next (s t : State) (r : Result) : complete s r = .next t ↔ t = s.returns r := by
  simp [complete, eq_comm]

/-- A completed command answers a next state that holds its record. -/
theorem complete_answers (s : State) {r : Result} {l : List Status} (h : r.status ∈ l) :
    ∃ t r', complete s r = .next t ∧ t.result = some r' ∧ r'.status ∈ l :=
  ⟨s.returns r, r, rfl, rfl, h⟩

theorem whenIssuedBy_owner {owner : Ctx} {s : State} (h : s.port.ctx = owner) (r : Refusal) (k : StepOutcome) :
    whenIssuedBy owner r s k = k := by
  simp [whenIssuedBy, h]

theorem whenIssuedBy_other {owner : Ctx} {s : State} (h : s.port.ctx ≠ owner) (r : Refusal) (k : StepOutcome) :
    whenIssuedBy owner r s k = .refused r := by
  simp [whenIssuedBy, h]

/-- A command that ends in a next state was issued by the right context. -/
@[simp] theorem whenIssuedBy_next {owner : Ctx} {r : Refusal} {s t : State} {k : StepOutcome} :
    whenIssuedBy owner r s k = .next t ↔ s.port.ctx = owner ∧ k = .next t := by
  by_cases h : s.port.ctx = owner <;> simp [whenIssuedBy, h]

/-! ### Arrays -/

@[simp] theorem memWrite_length {α : Type} (arr : List α) (i : Nat) (vs : List α) :
    (memWrite arr i vs).length = arr.length := by
  induction vs generalizing arr i with
  | nil => rfl
  | cons v vs ih => simp [memWrite, ih]

/-- An element outside the written range is as before. -/
theorem memWrite_getElem?_outside {α : Type} (arr : List α) (i j : Nat) (vs : List α) (h : j < i ∨ i + vs.length ≤ j) :
    (memWrite arr i vs)[j]? = arr[j]? := by
  induction vs generalizing arr i with
  | nil => rfl
  | cons v vs ih =>
    simp only [List.length_cons] at h
    rw [memWrite, ih _ _ (by omega), List.getElem?_set_ne (by omega)]

/-- Element i + k of the array is element k of what was written. -/
theorem memWrite_getElem?_inside {α : Type} (arr : List α) (i k : Nat) (vs : List α) (hk : k < vs.length)
    (h : i + vs.length ≤ arr.length) : (memWrite arr i vs)[i + k]? = vs[k]? := by
  induction vs generalizing arr i k with
  | nil => simp at hk
  | cons v vs ih =>
    simp only [List.length_cons] at h hk
    cases k with
    | zero =>
      rw [memWrite, memWrite_getElem?_outside _ _ _ _ (by omega)]
      simp [show i < arr.length by omega]
    | succ k =>
      rw [memWrite, show i + (k + 1) = (i + 1) + k by omega, ih _ _ _ (by omega) (by simp; omega)]
      simp

/-- The array up to the end of a write is the array up to its start, and then what was written. -/
theorem memWrite_take {α : Type} (arr : List α) (i : Nat) (vs : List α) (h : i + vs.length ≤ arr.length) :
    (memWrite arr i vs).take (i + vs.length) = arr.take i ++ vs := by
  apply List.ext_getElem?
  intro j
  rw [List.getElem?_take, List.getElem?_append, List.length_take, Nat.min_eq_left (by omega)]
  by_cases h1 : j < i
  · rw [if_pos (by omega), if_pos h1, List.getElem?_take, if_pos h1, memWrite_getElem?_outside _ _ _ _ (.inl h1)]
  · rw [if_neg h1]
    by_cases h2 : j < i + vs.length
    · have := memWrite_getElem?_inside arr i (j - i) vs (by omega) h
      rw [if_pos h2, ← this, show i + (j - i) = j by omega]
    · rw [if_neg h2, List.getElem?_eq_none (by omega)]

/-- The array after the written range is as before. -/
theorem memWrite_drop {α : Type} (arr : List α) (i : Nat) (vs : List α) :
    (memWrite arr i vs).drop (i + vs.length) = arr.drop (i + vs.length) := by
  apply List.ext_getElem?
  intro j
  rw [List.getElem?_drop, List.getElem?_drop, memWrite_getElem?_outside _ _ _ _ (.inr (by omega))]

@[simp] theorem shiftDown_length (arr : List Byte) (k m : Nat) : (shiftDown arr k m).length = arr.length := by
  induction m with
  | zero => rfl
  | succ m ih => simp [shiftDown, ih]

/-- The shift leaves every element at or past m as it was. -/
theorem shiftDown_getElem?_rest (arr : List Byte) (k m j : Nat) (h : m ≤ j) :
    (shiftDown arr k m)[j]? = arr[j]? := by
  induction m with
  | zero => rfl
  | succ m ih => rw [shiftDown, List.getElem?_set_ne (by omega), ih (by omega)]

/-- Element j < m after the shift is element j + k before it. -/
theorem shiftDown_getElem?_moved (arr : List Byte) (k m j : Nat) (hj : j < m) (h : m + k ≤ arr.length) :
    (shiftDown arr k m)[j]? = arr[j + k]? := by
  induction m with
  | zero => omega
  | succ m ih =>
    rw [shiftDown, List.getElem?_set]
    by_cases hm : m = j
    · subst hm
      rw [if_pos rfl, if_pos (by simp; omega), List.getD_eq_getElem?_getD,
        shiftDown_getElem?_rest _ _ _ _ (by omega)]
      rw [List.getElem?_eq_getElem (by omega), Option.getD_some]
    · rw [if_neg hm, ih (by omega) (by omega)]

/-- The shift brings the m elements from k on to the front, in order. -/
theorem shiftDown_take (arr : List Byte) (k m : Nat) (h : m + k ≤ arr.length) :
    (shiftDown arr k m).take m = (arr.drop k).take m := by
  apply List.ext_getElem?
  intro j
  rw [List.getElem?_take, List.getElem?_take, List.getElem?_drop]
  by_cases hj : j < m
  · rw [if_pos hj, if_pos hj, shiftDown_getElem?_moved _ _ _ _ hj h, Nat.add_comm]
  · rw [if_neg hj, if_neg hj]

theorem getD_of_take_eq_cons {buf : List Byte} {n : Nat} {x : Byte} {xs : List Byte} (h : buf.take n = x :: xs) :
    buf.getD 0 0#8 = x := by
  cases buf with
  | nil => simp at h
  | cons y ys =>
    cases n with
    | zero => simp at h
    | succ n => simp at h; simp [h.1]

/-! ### Counters and views -/

theorem wrapAdd_lt (bits a n : Nat) : wrapAdd bits a n < 2 ^ bits := Nat.mod_lt _ (Nat.two_pow_pos bits)

/-- A view lies between the value last seen and the latest (20_memory.md R57). -/
theorem observe_bounds {seen latest : Nat} (h : seen ≤ latest) (view : Option Nat) :
    seen ≤ observe seen latest view ∧ observe seen latest view ≤ latest := by
  cases view <;> simp [observe] <;> omega

/-- Every value in that range is the view of some draw. -/
theorem observe_drawn {seen latest k : Nat} (h1 : seen ≤ k) (h2 : k ≤ latest) : observe seen latest (some k) = k := by
  simp [observe]; omega

@[simp] theorem observe_current (seen latest : Nat) : observe seen latest none = latest := rfl

/-! ### Configuration -/

theorem configOk_iff (c : Config) : configOk c = true ↔
    c.numCells ≤ 32 ∧ 1 ≤ c.numRows ∧ 1 ≤ c.numCols ∧ 5 ≤ c.txCap ∧ 5 ≤ c.rxCap ∧ 2 ≤ c.qSlots ∧ 1 ≤ c.qWidth := by
  simp [configOk, and_assoc]

/-! ### Construction -/

@[simp] theorem PortUse.either_iff (ports : PortUse) :
    ports.either = true ↔ ports.producer = true ∨ ports.consumer = true := by
  simp [PortUse.either]

/-- Everything a construction can do, when it ends in a next state: its unit, and only its unit, takes its reset value; for
Q, neither port was in use (70_reset_and_hazards.md R281, R283). -/
theorem construct_next {u : UnitId} {ports : PortUse} {s t : State} (h : construct u ports s = .next t) :
    (u = .codec ∧ t = s) ∨ (u = .db ∧ t = s.withDb (dbConstructed s.cfg)) ∨
    (u = .tx ∧ t = s.withTx (TxUnit.constructed s.cfg)) ∨ (u = .rx ∧ t = s.withRx (RxUnit.constructed s.cfg)) ∨
    (u = .q ∧ ports.either = false ∧ t = s.withQ (QUnit.constructed s.cfg)) := by
  cases u <;> simp only [construct] at h
  case q =>
    split at h
    · simp at h
    · rename_i hp
      exact .inr (.inr (.inr (.inr ⟨rfl, Bool.eq_false_of_not_eq_true hp, by simpa using h.symm⟩)))
  all_goals simpa using h.symm

/-! ### One step -/

/-- Everything a step can be, when it ends in a next state: nothing pending, a command that decoded, a unit constructed,
or power-up. -/
theorem step_next {s t : State} (h : step s = .next t) :
    configOk s.cfg = true ∧
    ((s.pending = [] ∧ t = s) ∨
     (∃ c rest i, s.pending = .command c :: rest ∧ decode s.cfg c.word = .ok i ∧ exec i (s.accepts c rest) = .next t) ∨
     (∃ u ports rest, s.pending = .construct u ports :: rest ∧ construct u ports (s.continues rest) = .next t) ∨
     (∃ rest, s.pending = .powerUp :: rest ∧ t = powerUp (s.continues rest))) := by
  unfold step fetch at h
  by_cases hc : configOk s.cfg = true
  · rw [if_pos hc] at h
    refine ⟨hc, ?_⟩
    rcases hp : s.pending with _ | ⟨_ | _ | _, rest⟩ <;> rw [hp] at h
    · exact .inl ⟨rfl, by simpa using h.symm⟩
    · rename_i c
      rcases hd : decode s.cfg c.word with e | i
      · cases e; simp [hd] at h
      · simp only [hd] at h
        exact .inr (.inl ⟨c, rest, i, rfl, hd, h⟩)
    · exact .inr (.inr (.inl ⟨_, _, rest, rfl, h⟩))
    · exact .inr (.inr (.inr ⟨rest, rfl, by simpa using h.symm⟩))
  · rw [if_neg hc] at h
    simp at h

/-- A command at the front that decodes is run. -/
theorem step_command {s : State} {c : Command} {rest : List Stimulus} {i : Instr} (hc : configOk s.cfg = true)
    (hp : s.pending = .command c :: rest) (hd : decode s.cfg c.word = .ok i) : step s = exec i (s.accepts c rest) := by
  simp [step, fetch, hc, hp, hd]

end Sys2Proof.Machine
end

