-- ==== Sys2Proof/Laws/Codec.lean ====
section
/-! SUPPORT. CODEC: every instruction of the unit only returns a record, the same one in every state. -/

namespace Sys2Proof.Machine

/-- A codec instruction is a function of its operands alone (10_state.md R25). -/
theorem exec_codec {i : Instr} (h : unitOf i = .codec) :
    ∃ r, r.status ∈ statusesOf i ∧ (∀ v, r.output ≠ .value v) ∧ ∀ s, exec i s = .next (s.returns r) := by
  cases i with
  | codecEnckey idx pr =>
    by_cases hi : indexTooLarge idx = true
    · exact ⟨⟨.badIndex, .none⟩, by simp [statusesOf], by simp, fun s => by simp [exec, execCodecEnckey, hi]⟩
    · exact ⟨⟨.ok, .byte (codecKeyByte idx pr)⟩, by simp [statusesOf], by simp, fun s => by simp [exec, execCodecEnckey, hi]⟩
  | codecEncenc cw => exact ⟨⟨.ok, .byte (codecEncoderByte cw)⟩, by simp [statusesOf], by simp, fun _ => rfl⟩
  | codecDecode x =>
    by_cases h6 : x.getLsbD 6 = true
    · exact ⟨decodedEncoder (x.getLsbD 7), by simp [statusesOf, decodedEncoder], by simp [decodedEncoder],
        fun s => by simp only [exec, execCodecDecode, if_pos h6, complete]⟩
    · by_cases h5 : x.extractLsb' 0 5 = 31#5
      · exact ⟨decodedIllegal, by simp [statusesOf, decodedIllegal], by simp [decodedIllegal],
          fun s => by simp only [exec, execCodecDecode, if_neg h6, if_pos h5, complete]⟩
      · exact ⟨decodedKey (x.extractLsb' 0 5) (x.getLsbD 5), by simp [statusesOf, decodedKey], by simp [decodedKey],
          fun s => by simp only [exec, execCodecDecode, if_neg h6, if_neg h5, complete]⟩
  | codecEncoderCw low => exact ⟨decodedEncoder true, by simp [statusesOf, decodedEncoder], by simp [decodedEncoder], fun _ => rfl⟩
  | codecEncoderCcw low => exact ⟨decodedEncoder false, by simp [statusesOf, decodedEncoder], by simp [decodedEncoder], fun _ => rfl⟩
  | codecIllegal bit7 bit5 => exact ⟨decodedIllegal, by simp [statusesOf, decodedIllegal], by simp [decodedIllegal], fun _ => rfl⟩
  | codecKey bit7 pr idx => exact ⟨decodedKey idx pr, by simp [statusesOf, decodedKey], by simp [decodedKey], fun _ => rfl⟩
  | _ => simp [unitOf] at h

end Sys2Proof.Machine
end

