-- ==== Sys2Proof/Laws/Debounce.lean ====
section
/-! SUPPORT. DB: the record-level functions, and what a DB command does to the state. -/

namespace Sys2Proof.Machine

/-! ### One record -/

theorem submitTo_idle {w : Nat} {d : DbRecord} (h : d.laValid = false) (st : Bool) (now : Nat) :
    submitTo w d st now = (d.accepted now, .accept st) := by
  simp [submitTo, h]

theorem submitTo_back {w : Nat} {d : DbRecord} {now : Nat} (h : d.laValid = true) (ht : now < d.ts) (st : Bool) :
    submitTo w d st now = (d.accepted now, .accept st) := by
  simp [submitTo, h, clockWentBack, ht]

theorem submitTo_repeat {w : Nat} {d : DbRecord} {now : Nat} {st : Bool} (h : d.laValid = true) (ht : d.ts ≤ now)
    (hw : now - d.ts < w) (hq : d.qValid = true ∧ d.qState = st) : submitTo w d st now = (d, .reject) := by
  simp [submitTo, h, clockWentBack, insideWindow, hw, hq.1, hq.2, Nat.not_lt.mpr ht]

theorem submitTo_quarantine {w : Nat} {d : DbRecord} {now : Nat} {st : Bool} (h : d.laValid = true) (ht : d.ts ≤ now)
    (hw : now - d.ts < w) (hq : ¬(d.qValid = true ∧ d.qState = st)) :
    submitTo w d st now = (d.quarantined st now, .reject) := by
  simp [submitTo, h, clockWentBack, insideWindow, hw, Nat.not_lt.mpr ht]
  intro h1 h2
  exact absurd ⟨h1, h2⟩ hq

theorem submitTo_elapsed {w : Nat} {d : DbRecord} {now : Nat} (h : d.laValid = true) (ht : d.ts ≤ now)
    (hw : w ≤ now - d.ts) (st : Bool) : submitTo w d st now = (d.accepted now, .accept st) := by
  simp [submitTo, h, clockWentBack, insideWindow, Nat.not_lt.mpr hw, Nat.not_lt.mpr ht]

/-- Every submit takes one of these forms. -/
theorem submitTo_cases (w : Nat) (d : DbRecord) (st : Bool) (now : Nat) :
    submitTo w d st now = (d.accepted now, .accept st) ∨
    (d.laValid = true ∧ submitTo w d st now = (d, .reject)) ∨
    (d.laValid = true ∧ submitTo w d st now = (d.quarantined st now, .reject)) := by
  by_cases h : d.laValid = true
  · by_cases ht : now < d.ts
    · exact .inl (submitTo_back h ht st)
    · by_cases hw : now - d.ts < w
      · by_cases hq : d.qValid = true ∧ d.qState = st
        · exact .inr (.inl ⟨h, submitTo_repeat h (by omega) hw hq⟩)
        · exact .inr (.inr ⟨h, submitTo_quarantine h (by omega) hw hq⟩)
      · exact .inl (submitTo_elapsed h (by omega) (by omega) st)
  · exact .inl (submitTo_idle (by simpa using h) st now)

theorem releaseFrom_none {w : Nat} {d : DbRecord} (h : d.qValid = false) (now : Nat) :
    releaseFrom w d now = (d, .noVerdict) := by
  simp [releaseFrom, h]

theorem releaseFrom_due {w : Nat} {d : DbRecord} {now : Nat} (h : d.qValid = true)
    (ht : now < d.ts ∨ (d.ts ≤ now ∧ w ≤ now - d.ts)) : releaseFrom w d now = (d.released now, .accept d.qState) := by
  simp [releaseFrom, h, clockWentBack, insideWindow]
  omega

theorem releaseFrom_inside {w : Nat} {d : DbRecord} {now : Nat} (h : d.qValid = true) (ht : d.ts ≤ now)
    (hw : now - d.ts < w) : releaseFrom w d now = (d, .noVerdict) := by
  simp [releaseFrom, h, clockWentBack, insideWindow, hw, Nat.not_lt.mpr ht]

/-- Every release takes one of these forms. -/
theorem releaseFrom_cases (w : Nat) (d : DbRecord) (now : Nat) :
    releaseFrom w d now = (d, .noVerdict) ∨
    (d.qValid = true ∧ releaseFrom w d now = (d.released now, .accept d.qState)) := by
  by_cases h : d.qValid = true
  · by_cases ht : now < d.ts ∨ (d.ts ≤ now ∧ w ≤ now - d.ts)
    · exact .inr ⟨h, releaseFrom_due h ht⟩
    · exact .inl (releaseFrom_inside h (by omega) (by omega))
  · exact .inl (releaseFrom_none (by simpa using h) now)

/-! ### The array -/

/-- Writing back the record that was read changes nothing. -/
theorem dbWrite_dbRecord {s : State} {b : Byte} (h : b.toNat < s.db.length) : dbWrite s b (dbRecord s b) = s := by
  simp [dbWrite, dbRecord, State.withDb, List.getD_eq_getElem?_getD, List.getElem?_eq_getElem h]

theorem dbRecord_dbWrite {s : State} {b : Byte} (d : DbRecord) (h : b.toNat < s.db.length) :
    dbRecord (dbWrite s b d) b = d := by
  simp [dbWrite, dbRecord, State.withDb, List.getD_eq_getElem?_getD, h]

theorem dbRecord_mem {s : State} {b : Byte} (h : b.toNat < s.db.length) : dbRecord s b ∈ s.db := by
  simp [dbRecord, List.getD_eq_getElem?_getD, List.getElem?_eq_getElem h]

@[simp] theorem dbRecord_returns (s : State) (r : Result) (b : Byte) : dbRecord (s.returns r) b = dbRecord s b := rfl

/-! ### The commands -/

theorem onButton_inRange {s : State} {b : Byte} (h : b.toNat < s.cfg.numButtons) (f : DbRecord → DbRecord × Output) :
    onButton b s f = complete (dbWrite s b (f (dbRecord s b)).1) ⟨.ok, (f (dbRecord s b)).2⟩ := by
  simp [onButton, buttonOutOfRange, h]

theorem onButton_outOfRange {s : State} {b : Byte} (h : s.cfg.numButtons ≤ b.toNat) (f : DbRecord → DbRecord × Output) :
    onButton b s f = complete s ⟨.range, .none⟩ := by
  simp [onButton, buttonOutOfRange, h]

/-- A DB command that answers a next state was out of range, or wrote one record. -/
theorem onButton_next {s t : State} {b : Byte} {f : DbRecord → DbRecord × Output} (h : onButton b s f = .next t) :
    (s.cfg.numButtons ≤ b.toNat ∧ t = s.returns ⟨.range, .none⟩) ∨
    (b.toNat < s.cfg.numButtons ∧ t = (dbWrite s b (f (dbRecord s b)).1).returns ⟨.ok, (f (dbRecord s b)).2⟩) := by
  by_cases hb : b.toNat < s.cfg.numButtons
  · exact .inr ⟨hb, by simpa [onButton_inRange hb] using h⟩
  · exact .inl ⟨by omega, by simpa [onButton_outOfRange (Nat.not_lt.mp hb)] using h⟩

end Sys2Proof.Machine
end

