-- ==== Sys2Proof/Laws/Decode.lean ====
section
/-! SUPPORT. The fields of a word, what a decoded command is, and the bounds the per-instruction lemmas need. -/

namespace Sys2Proof

theorem fieldBits_toNat (w lo n : Nat) : (fieldBits w lo n).toNat = w / 2 ^ lo % 2 ^ n := by
  simp [fieldBits, Nat.shiftRight_eq_div_pow]

theorem fieldNat_eq (w lo n : Nat) : fieldNat w lo n = w / 2 ^ lo % 2 ^ n := by
  rw [fieldNat, Nat.shiftRight_eq_div_pow]

theorem fieldNat_lt (w lo n : Nat) : fieldNat w lo n < 2 ^ n := Nat.mod_lt _ (Nat.two_pow_pos n)

theorem fieldBit_toNat (w i : Nat) : (fieldBit w i).toNat = w / 2 ^ i % 2 := by
  rw [fieldBit, Nat.testBit_eq_decide_div_mod_eq]
  rcases Nat.mod_two_eq_zero_or_one (w / 2 ^ i) with h | h <;> simp [h]

theorem toNat_inj {x y : Bool} (h : x.toNat = y.toNat) : x = y := by cases x <;> cases y <;> simp_all

/-- The command found for a code has that code (30_encoding.md R82). -/
theorem Opsel.code_of_ofCode {c : Byte} {o : Opsel} (h : Opsel.ofCode c = some o) : o.code = c := by
  simpa using List.find?_some h

/-- The operands a command decodes to fit their fields (30_encoding.md R83). -/
theorem decodeOperands_wellFormed (cfg : Config) (w : Nat) (o : Opsel) :
    (decodeOperands cfg w o).wellFormed cfg = true ∧ (decodeOperands cfg w o).format = .opsel := by
  cases o <;> simp [decodeOperands, Instr.wellFormed, Instr.format, fieldNat_lt]

/-- What the command decoder answers is a well-formed command. -/
theorem decode_command {cfg : Config} {w : Nat} {i : Instr} (h : decode cfg w = .ok i) :
    i.wellFormed cfg = true ∧ i.format = .opsel := by
  unfold decode at h
  split at h
  · injection h with h
    subst h
    exact decodeOperands_wellFormed cfg w _
  · simp at h

end Sys2Proof
end

