-- ==== Sys2Proof/Laws/LinkRx.lean ====
section
/-! SUPPORT. RX: the frames, the scan for a tag, the interpretation and the read step. -/

namespace Sys2Proof.Machine

/-! ### Snapshots -/

/-- `v[NUM_CELLS−1:0]`, bit by bit (30_encoding.md R96). -/
theorem cellsOf_getLsbD (cfg : Config) (v : BitVec 32) (i : Nat) :
    (cellsOf cfg v).getLsbD i = (decide (i < cfg.numCells) && v.getLsbD i) := by
  simp only [cellsOf, BitVec.getLsbD_and, BitVec.getLsbD_ofNat, Nat.testBit_two_pow_sub_one]
  by_cases hi : i < 32
  · simp [hi, Bool.and_comm]
  · simp [BitVec.getLsbD_of_ge v i (Nat.not_lt.mp hi)]

/-- A snapshot is the cells of v when its bits are. -/
theorem eq_cellsOf {cfg : Config} {v new : BitVec 32}
    (h : ∀ i, new.getLsbD i = (decide (i < cfg.numCells) && v.getLsbD i)) : new = cellsOf cfg v :=
  BitVec.eq_of_getLsbD_eq fun i _ => by rw [h, cellsOf_getLsbD]

/-! ### Frames -/

@[simp] theorem matrixFrame_buf (cfg : Config) (f : BitVec 32) (rx : RxUnit) : (matrixFrame cfg f rx).1.buf = rx.buf := rfl

@[simp] theorem matrixFrame_cur (cfg : Config) (f : BitVec 32) (rx : RxUnit) : (matrixFrame cfg f rx).1.cur = 0 := rfl

/-- An encoder frame does what its direction byte says. -/
theorem encoderFrame_cases (cfg : Config) (d : Byte) (rx : RxUnit) :
    (d = 0x00#8 ∧ encoderFrame cfg d rx = validDirection true rx) ∨
    (d = 0x01#8 ∧ encoderFrame cfg d rx = validDirection false rx) ∨
    (d ≠ 0x00#8 ∧ d ≠ 0x01#8 ∧ encoderFrame cfg d rx = malformedDirection cfg rx) := by
  by_cases h0 : d = 0x00#8
  · exact .inl ⟨h0, by simp [encoderFrame, h0]⟩
  · by_cases h1 : d = 0x01#8
    · exact .inr (.inl ⟨h1, by simp [encoderFrame, h1]⟩)
    · exact .inr (.inr ⟨h0, h1, by simp [encoderFrame, h0, h1]⟩)

/-! ### The scan for a tag -/

theorem isTag_iff (x : Byte) : isTag x = true ↔ x = 0xFF#8 ∨ x = 0xFE#8 := by
  simp [isTag, tagMatrix, tagEncoder]

/-- The offset found is in range, holds a tag, and no earlier offset does. -/
theorem findTag_some {buf : List Byte} {k n j : Nat} (h : findTag buf k n = some j) :
    k ≤ j ∧ j < k + n ∧ isTag (buf.getD j 0#8) = true ∧ ∀ i, k ≤ i → i < j → isTag (buf.getD i 0#8) = false := by
  induction n generalizing k with
  | zero => simp [findTag] at h
  | succ n ih =>
    rw [findTag] at h
    split at h
    · rename_i ht
      obtain rfl : k = j := by simpa using h
      exact ⟨by omega, by omega, ht, fun i _ _ => by omega⟩
    · rename_i ht
      obtain ⟨a, b, c, d⟩ := ih h
      refine ⟨by omega, by omega, c, fun i hi hj => ?_⟩
      by_cases hk : i = k
      · subst hk; simpa using ht
      · exact d i (by omega) hj

/-- With no offset found, none of the offsets holds a tag. -/
theorem findTag_none {buf : List Byte} {k n : Nat} (h : findTag buf k n = none) :
    ∀ i, k ≤ i → i < k + n → isTag (buf.getD i 0#8) = false := by
  induction n generalizing k with
  | zero => intro i; omega
  | succ n ih =>
    rw [findTag] at h
    split at h
    · simp at h
    · rename_i ht
      intro i hi hn
      by_cases hk : i = k
      · subst hk; simpa using ht
      · exact ih h i (by omega) (by omega)

/-! ### Interpretation -/

theorem RxUnit.shifted_take {rx : RxUnit} {k : Nat} (hk : k ≤ rx.cur) (h : rx.cur ≤ rx.buf.length) :
    (rx.shifted k).buf.take (rx.shifted k).cur = (rx.buf.take rx.cur).drop k := by
  simp only [RxUnit.shifted]
  rw [shiftDown_take _ _ _ (by omega), List.drop_take]

@[simp] theorem RxUnit.shifted_cur (rx : RxUnit) (k : Nat) : (rx.shifted k).cur = rx.cur - k := rfl

@[simp] theorem RxUnit.shifted_length (rx : RxUnit) (k : Nat) : (rx.shifted k).buf.length = rx.buf.length := by
  simp [RxUnit.shifted]

/-- At a tag, one unit of fuel is enough: no retry follows (43_link_rx.md R198). -/
theorem interpret_aligned {cfg : Config} {rx : RxUnit} (h : isTag (rx.buf.getD 0 0#8) = true) (m n : Nat) :
    interpret cfg (m + 1) rx = interpret cfg (n + 1) rx := by
  rcases (isTag_iff _).mp h with h | h
  · simp only [interpret, h]; simp [tagMatrix]
  · simp only [interpret, h]; simp [tagMatrix, tagEncoder]

/-- The tag at offset 0 after a shift to the offset found. -/
theorem RxUnit.shifted_tag {rx : RxUnit} {k n : Nat} (h : findTag rx.buf 1 n = some k) (hn : n = rx.cur - 1)
    (hl : rx.cur ≤ rx.buf.length) : isTag ((rx.shifted k).buf.getD 0 0#8) = true := by
  obtain ⟨h1, h2, h3, -⟩ := findTag_some h
  have := shiftDown_getElem?_moved rx.buf k (rx.cur - k) 0 (by omega) (by omega)
  rw [List.getD_eq_getElem?_getD, RxUnit.shifted, this, Nat.zero_add, ← List.getD_eq_getElem?_getD]
  exact h3

/-- One interpretation of at least one byte: the first tag decides; before it, one resync. -/
theorem interpret_cases (cfg : Config) (rx : RxUnit) (fuel : Nat) :
    (isTag (rx.buf.getD 0 0#8) = true ∧ interpret cfg (fuel + 1) rx = interpret cfg 1 rx) ∨
    (isTag (rx.buf.getD 0 0#8) = false ∧ interpret cfg (fuel + 1) rx = resync cfg (interpret cfg fuel) rx) := by
  by_cases h : isTag (rx.buf.getD 0 0#8) = true
  · exact .inl ⟨h, interpret_aligned h fuel 0⟩
  · refine .inr ⟨by simpa using h, ?_⟩
    rw [isTag_iff, not_or] at h
    simp only [interpret]
    rw [if_neg (by simpa [tagMatrix] using h.1), if_neg (by simpa [tagEncoder] using h.2)]

/-! ### Ending a cycle -/

@[simp] theorem rxDone_next {s t : State} {r : RxUnit × Output} :
    rxDone s r = .next t ↔ t = (s.withRx r.1).returns ⟨.ok, r.2⟩ := by
  simp [rxDone]

theorem RxUnit.received_take {cfg : Config} {rx : RxUnit} {bytes : List Byte} (h : rx.cur + bytes.length ≤ rx.buf.length) :
    (rx.received cfg bytes).buf.take (rx.received cfg bytes).cur = rx.buf.take rx.cur ++ bytes :=
  memWrite_take _ _ _ h

@[simp] theorem RxUnit.received_length (cfg : Config) (rx : RxUnit) (bytes : List Byte) :
    (rx.received cfg bytes).buf.length = rx.buf.length := by
  simp [RxUnit.received]

/-- A cycle in which SOURCE delivered bytes that fit. -/
theorem cycle_read {s : State} {bytes : List Byte} (hs : s.port.source = .read bytes) (hne : bytes ≠ [])
    (hfit : bytes.length ≤ s.cfg.rxCap - s.rx.cur) :
    cycle s = rxDone s (interpret s.cfg (s.rx.received s.cfg bytes).cur (s.rx.received s.cfg bytes)) := by
  cases bytes with
  | nil => exact absurd rfl hne
  | cons x xs => simp only [cycle, hs]; rw [if_pos hfit]

/-- A cycle that answers a next state read nothing, or read bytes that fit and interpreted them. -/
theorem cycle_next {s t : State} (h : cycle s = .next t) :
    t = s.returns ⟨.ok, .nothing⟩ ∨
    ∃ bytes, s.port.source = .read bytes ∧ bytes ≠ [] ∧ bytes.length ≤ s.cfg.rxCap - s.rx.cur ∧
      t = (s.withRx (interpret s.cfg (s.rx.received s.cfg bytes).cur (s.rx.received s.cfg bytes)).1).returns
        ⟨.ok, (interpret s.cfg (s.rx.received s.cfg bytes).cur (s.rx.received s.cfg bytes)).2⟩ := by
  unfold cycle at h
  rcases hs : s.port.source with bytes | _ | _ <;> simp only [hs] at h
  · cases bytes with
    | nil => exact .inl (by simpa using h)
    | cons x xs =>
      simp only at h
      split at h
      · exact .inr ⟨x :: xs, rfl, by simp, ‹_›, by simpa using h⟩
      · simp at h
  · exact .inl (by simpa using h)
  · exact .inl (by simpa using h)

/-! ### The array procedure and the list reading -/

/-- RX after an interpretation, and its output, are what a reading says (43_link_rx.md R193 to R200). -/
def RxMatches (cfg : Config) (rx rx' : RxUnit) (o : Output) (r : RxReading) : Prop :=
  o = r.output ∧ rx'.buf.length = rx.buf.length ∧ rx'.cur = r.kept.length ∧ rx'.buf.take rx'.cur = r.kept ∧
  rx'.remote = r.remote ∧
  rx'.cntBytes = rx.cntBytes ∧ rx'.cntReads = rx.cntReads ∧
  rx'.cntMalformed = (if r.malformed = 0 then rx.cntMalformed else wrapAdd cfg.cntBits rx.cntMalformed r.malformed) ∧
  rx'.cntResync = (if r.resyncs = 0 then rx.cntResync else wrapAdd cfg.cntBits rx.cntResync r.resyncs)

theorem getD_take_lt {l : List Byte} {n i : Nat} (h : i < n) : (l.take n).getD i 0#8 = l.getD i 0#8 := by
  simp [List.getD_eq_getElem?_getD, h]

/-- A complete matrix frame does what `readAligned` says (43_link_rx.md R195). -/
theorem matrixFrame_matches (cfg : Config) (b0 b1 b2 b3 : Byte) (rest : List Byte) (rx : RxUnit) :
    RxMatches cfg rx (matrixFrame cfg (payloadField b0 b1 b2 b3) rx).1 (matrixFrame cfg (payloadField b0 b1 b2 b3) rx).2
     (readAligned cfg rx.remote (0xFF#8 :: b0 :: b1 :: b2 :: b3 :: rest)) := by
  simp [RxMatches, readAligned, matrixFrame]

/-- A complete encoder frame does what `readAligned` says (43_link_rx.md R196). -/
theorem encoderFrame_matches (cfg : Config) (d : Byte) (rest : List Byte) (rx : RxUnit) :
    RxMatches cfg rx (encoderFrame cfg d rx).1 (encoderFrame cfg d rx).2 (readAligned cfg rx.remote (0xFE#8 :: d :: rest)) := by
  rcases encoderFrame_cases cfg d rx with ⟨h, e⟩ | ⟨h, e⟩ | ⟨h, h', e⟩
  · subst h; rw [e]; simp [RxMatches, readAligned, validDirection]
  · subst h; rw [e]; simp [RxMatches, readAligned, validDirection]
  · rw [e]
    have : readAligned cfg rx.remote (0xFE#8 :: d :: rest) = ⟨[], rx.remote, .nothing, 1, 0⟩ := by
      unfold readAligned
      split <;> simp_all
    rw [this]; simp [RxMatches, malformedDirection]

/-- At a tag, INTERPRET does to the array what `readAligned` says of the held bytes. -/
theorem interpret_aligned_matches (cfg : Config) (rx : RxUnit) (hl : rx.cur ≤ rx.buf.length) (hc : 0 < rx.cur)
    (ht : isTag (rx.buf.getD 0 0#8) = true) (fuel : Nat) :
    RxMatches cfg rx (interpret cfg (fuel+1) rx).1 (interpret cfg (fuel+1) rx).2 (readAligned cfg rx.remote (rx.buf.take rx.cur)) := by
  have hlen : (rx.buf.take rx.cur).length = rx.cur := by simp; omega
  rcases (isTag_iff _).mp ht with h | h
  · unfold interpret
    rw [if_pos (show rx.buf.getD 0 0#8 = tagMatrix from h)]
    have h0 : (rx.buf.take rx.cur).getD 0 0#8 = 0xFF#8 := by rw [getD_take_lt hc, h]
    by_cases h5 : rx.cur < 5
    · rw [if_pos h5]
      have : readAligned cfg rx.remote (rx.buf.take rx.cur) = ⟨rx.buf.take rx.cur, rx.remote, .nothing, 0, 0⟩ := by
        generalize hx : rx.buf.take rx.cur = l at *
        rcases l with _ | ⟨a, _ | ⟨b, _ | ⟨c, _ | ⟨d, _ | ⟨e, l⟩⟩⟩⟩⟩ <;> simp at h0 hlen <;> try (subst h0; simp [readAligned])
        all_goals omega
      rw [this]; simp [RxMatches]; omega
    · rw [if_neg h5]
      have g1 : (rx.buf.take rx.cur).getD 1 0#8 = rx.buf.getD 1 0#8 := getD_take_lt (by omega)
      have g2 : (rx.buf.take rx.cur).getD 2 0#8 = rx.buf.getD 2 0#8 := getD_take_lt (by omega)
      have g3 : (rx.buf.take rx.cur).getD 3 0#8 = rx.buf.getD 3 0#8 := getD_take_lt (by omega)
      have g4 : (rx.buf.take rx.cur).getD 4 0#8 = rx.buf.getD 4 0#8 := getD_take_lt (by omega)
      rw [← g1, ← g2, ← g3, ← g4]
      generalize hx : rx.buf.take rx.cur = l at *
      rcases l with _ | ⟨a, _ | ⟨b, _ | ⟨c, _ | ⟨d, _ | ⟨e, l⟩⟩⟩⟩⟩ <;> simp at h0 hlen <;> try omega
      subst h0
      exact matrixFrame_matches cfg b c d e l rx
  · unfold interpret
    rw [if_neg (by rw [h]; decide), if_pos (show rx.buf.getD 0 0#8 = tagEncoder from h)]
    have h0 : (rx.buf.take rx.cur).getD 0 0#8 = 0xFE#8 := by rw [getD_take_lt hc, h]
    by_cases h5 : rx.cur < 2
    · rw [if_pos h5]
      have : readAligned cfg rx.remote (rx.buf.take rx.cur) = ⟨rx.buf.take rx.cur, rx.remote, .nothing, 0, 0⟩ := by
        generalize hx : rx.buf.take rx.cur = l at *
        rcases l with _ | ⟨a, _ | ⟨b, l⟩⟩ <;> simp at h0 hlen <;> try (subst h0; simp [readAligned])
        all_goals omega
      rw [this]; simp [RxMatches]; omega
    · rw [if_neg h5]
      have g1 : (rx.buf.take rx.cur).getD 1 0#8 = rx.buf.getD 1 0#8 := getD_take_lt (by omega)
      rw [← g1]
      generalize hx : rx.buf.take rx.cur = l at *
      rcases l with _ | ⟨a, _ | ⟨b, l⟩⟩ <;> simp at h0 hlen <;> try omega
      subst h0
      exact encoderFrame_matches cfg b l rx

/-- The offset found is where the bytes before the first tag end. -/
theorem findTag_some_dropWhile {l : List Byte} {n k j : Nat} (h : findTag l k n = some j) (hn : k + n = l.length) :
    (l.drop k).dropWhile (fun y => !isTag y) = l.drop j := by
  induction n generalizing k with
  | zero => simp [findTag] at h
  | succ n ih =>
    rw [findTag] at h
    have hk : k < l.length := by omega
    rw [List.drop_eq_getElem_cons hk]
    have e : l.getD k 0#8 = l[k] := by simp [hk]
    rw [e] at h
    split at h
    · rename_i ht
      obtain rfl : k = j := by simpa using h
      rw [List.dropWhile_cons_of_neg (by simp [ht]), List.drop_eq_getElem_cons hk]
    · rename_i ht
      rw [List.dropWhile_cons_of_pos (by simpa using ht)]
      exact ih h (by omega)

/-- With no offset found, every byte is before a tag. -/
theorem findTag_none_dropWhile {l : List Byte} {n k : Nat} (h : findTag l k n = none) (hn : k + n = l.length) :
    (l.drop k).dropWhile (fun y => !isTag y) = [] := by
  rw [List.dropWhile_eq_nil_iff]
  intro x hx
  obtain ⟨i, hi, rfl⟩ := List.mem_iff_getElem.mp hx
  have := findTag_none h (k + i) (by omega) (by simp at hi; omega)
  rw [List.getElem_drop]
  simp at hi
  rw [List.getD_eq_getElem?_getD, List.getElem?_eq_getElem (by omega)] at this
  simpa using this

theorem findTag_take (buf : List Byte) (c k n : Nat) (h : k + n ≤ c) : findTag buf k n = findTag (buf.take c) k n := by
  induction n generalizing k with
  | zero => rfl
  | succ n ih => rw [findTag, findTag, getD_take_lt (by omega), ih (k+1) (by omega)]

/-- RESYNC drops the bytes before the first tag and interprets the rest once (43_link_rx.md R197, R198). -/
theorem resync_matches (cfg : Config) (rx : RxUnit) (hl : rx.cur ≤ rx.buf.length) (hc : 0 < rx.cur)
    (fuel : Nat) (hf : rx.cur ≤ fuel + 1) :
    RxMatches cfg rx (resync cfg (interpret cfg fuel) rx).1 (resync cfg (interpret cfg fuel) rx).2
     { readAligned cfg rx.remote ((rx.buf.take rx.cur).tail.dropWhile (fun y => !isTag y)) with resyncs := 1 } := by
  have hlen : (rx.buf.take rx.cur).length = rx.cur := by simp; omega
  unfold resync
  have ft := findTag_take rx.buf rx.cur 1 (rx.cur - 1) (by omega)
  rcases hk : findTag rx.buf 1 (rx.cur - 1) with _ | k
  · rw [ft] at hk
    have := findTag_none_dropWhile hk (by omega)
    rw [List.drop_one] at this
    rw [this]
    simp [RxMatches, readAligned]
  · have hk' := hk
    rw [ft] at hk'
    have h1 := findTag_some_dropWhile hk' (by omega)
    rw [List.drop_one] at h1
    rw [h1]
    obtain ⟨q1, q2, q3, q4⟩ := findTag_some hk
    have tg := RxUnit.shifted_tag hk rfl hl
    simp only
    obtain ⟨f, rfl⟩ : ∃ f, fuel = f + 1 := ⟨fuel - 1, by omega⟩
    have am := interpret_aligned_matches cfg { rx.shifted k with cntResync := wrapAdd cfg.cntBits rx.cntResync 1 }
      (by simp; omega) (by simp; omega) tg f
    have st := RxUnit.shifted_take (rx := rx) (k := k) (by omega) hl
    simp only at am
    rw [st] at am
    obtain ⟨a1, a2, a3, a4, a5, a6, a7, a8, a9⟩ := am
    have rs : ∀ l rem, (readAligned cfg rem l).resyncs = 0 := by
      intro l rem; unfold readAligned; split <;> rfl
    rw [rs] at a9
    exact ⟨a1, by simpa using a2, a3, a4, a5, a6, a7, a8, by simpa using a9⟩

/-- INTERPRET does to the array what `readStream` says of the held bytes. -/
theorem interpret_matches (cfg : Config) (rx : RxUnit) (hl : rx.cur ≤ rx.buf.length) (hc : 0 < rx.cur)
    (fuel : Nat) (hf : rx.cur ≤ fuel) :
    RxMatches cfg rx (interpret cfg fuel rx).1 (interpret cfg fuel rx).2 (readStream cfg rx.remote (rx.buf.take rx.cur)) := by
  obtain ⟨f, rfl⟩ : ∃ f, fuel = f + 1 := ⟨fuel - 1, by omega⟩
  have hlen : (rx.buf.take rx.cur).length = rx.cur := by simp; omega
  have h0 : (rx.buf.take rx.cur).getD 0 0#8 = rx.buf.getD 0 0#8 := getD_take_lt hc
  unfold readStream
  rcases interpret_cases cfg rx f with ⟨h, e⟩ | ⟨h, e⟩
  · have := interpret_aligned_matches cfg rx hl hc h f
    generalize hx : rx.buf.take rx.cur = l at *
    rcases l with _ | ⟨x, xs⟩
    · simp at hlen; omega
    · simp at h0; simp only; rw [if_pos (by rw [h0]; exact h)]; exact this
  · have := resync_matches cfg rx hl hc f hf
    rw [e]
    generalize hx : rx.buf.take rx.cur = l at *
    rcases l with _ | ⟨x, xs⟩
    · simp at hlen; omega
    · simp at h0; simp only; rw [if_neg (by rw [h0, ← List.getD_eq_getElem?_getD, h]; decide)]; exact this

/-- Dropping the bytes that are no tag stops at the first tag. -/
theorem dropWhile_junk : ∀ (junk tail : List Byte), (∀ x ∈ junk, x ≠ 0xFF#8 ∧ x ≠ 0xFE#8) →
    (tail = [] ∨ tail.head? = some 0xFF#8 ∨ tail.head? = some 0xFE#8) → (junk ++ tail).dropWhile (fun y => !isTag y) = tail := by
  intro junk tail hj ht
  induction junk with
  | nil => 
    rcases tail with _ | ⟨x, xs⟩
    · rfl
    · simp at ht; rw [List.nil_append, List.dropWhile_cons_of_neg]; simp [isTag_iff, ht]
  | cons x xs ih =>
    rw [List.cons_append, List.dropWhile_cons_of_pos]
    · exact ih (fun y hy => hj y (by simp [hy]))
    · have := hj x (by simp)
      have h2 : ¬ isTag x = true := by rw [isTag_iff]; tauto
      simp [h2]

end Sys2Proof.Machine
end

