-- ==== Sys2Proof/Laws/LinkTx.lean ====
section
/-! SUPPORT. TX: what queueing a frame and pumping do to the pending bytes. -/

namespace Sys2Proof.Machine

/-- The pending bytes of a unit. -/
theorem txPending_withTx (s : State) (tx : TxUnit) : txPending (s.withTx tx) = tx.buf.take tx.cur := rfl

@[simp] theorem txPending_returns (s : State) (r : Result) : txPending (s.returns r) = txPending s := rfl

@[simp] theorem txPending_sends (s : State) (bytes : List Byte) : txPending (s.sends bytes) = txPending s := rfl

@[simp] theorem TxUnit.append_cur (tx : TxUnit) (frame : List Byte) : (tx.append frame).cur = tx.cur + frame.length := rfl

@[simp] theorem TxUnit.append_length (tx : TxUnit) (frame : List Byte) : (tx.append frame).buf.length = tx.buf.length := by
  simp [TxUnit.append]

/-- A queued frame follows the pending bytes (42_link_tx.md R172, R173). -/
theorem TxUnit.append_take {tx : TxUnit} {frame : List Byte} (h : tx.cur + frame.length ≤ tx.buf.length) :
    (tx.append frame).buf.take (tx.append frame).cur = tx.buf.take tx.cur ++ frame :=
  memWrite_take _ _ _ h

theorem TxUnit.append_drop (tx : TxUnit) (frame : List Byte) :
    (tx.append frame).buf.drop (tx.append frame).cur = tx.buf.drop (tx.cur + frame.length) :=
  memWrite_drop _ _ _

@[simp] theorem TxUnit.sent_cur (tx : TxUnit) (n : Nat) : (tx.sent n).cur = tx.cur - n := rfl

@[simp] theorem TxUnit.sent_length (tx : TxUnit) (n : Nat) : (tx.sent n).buf.length = tx.buf.length := by
  simp [TxUnit.sent]

/-- The unsent bytes move to the front, in order (42_link_tx.md R176). -/
theorem TxUnit.sent_take {tx : TxUnit} {n : Nat} (hn : n ≤ tx.cur) (h : tx.cur ≤ tx.buf.length) :
    (tx.sent n).buf.take (tx.sent n).cur = (tx.buf.take tx.cur).drop n := by
  simp only [TxUnit.sent]
  rw [shiftDown_take _ _ _ (by omega), List.drop_take]

/-- A serialize command that answers a next state queued the whole frame or nothing (42_link_tx.md R171). -/
theorem queueFrame_next {s t : State} {frame : List Byte} (h : queueFrame frame s = .next t) :
    (s.cfg.txCap - s.tx.cur < frame.length ∧ t = s.returns ⟨.full, .none⟩) ∨
    (frame.length ≤ s.cfg.txCap - s.tx.cur ∧ t = (s.withTx (s.tx.append frame)).returns ⟨.ok, .none⟩) := by
  by_cases hr : s.cfg.txCap - s.tx.cur < frame.length
  · exact .inl ⟨hr, by simpa [queueFrame, txLacksRoom, hr] using h⟩
  · exact .inr ⟨by omega, by simpa [queueFrame, txLacksRoom, hr] using h⟩

/-- A pump that answers a next state sent a prefix of the pending bytes, or nothing (42_link_tx.md R174). -/
theorem pump_next {s t : State} (h : pump s = .next t) :
    (s.tx.cur = 0 ∧ t = s.returns ⟨.ok, .pumped 0 true⟩) ∨
    (∃ n, 0 < s.tx.cur ∧ s.port.sink = .written n ∧ n ≤ s.tx.cur ∧
      t = ((s.withTx (s.tx.sent n)).sends (s.tx.buf.take n)).returns ⟨.ok, .pumped n true⟩) ∨
    (0 < s.tx.cur ∧ s.port.sink = .wouldBlock ∧ t = s.returns ⟨.wouldBlock, .pumped 0 true⟩) ∨
    (0 < s.tx.cur ∧ s.port.sink = .error ∧ t = s.returns ⟨.sinkError, .pumped 0 false⟩) := by
  unfold pump at h
  by_cases h0 : s.tx.cur = 0
  · exact .inl ⟨h0, by simpa [h0] using h⟩
  · rw [if_neg h0] at h
    rcases hs : s.port.sink with n | _ | _ <;> simp only [hs] at h
    · by_cases hn : n ≤ s.tx.cur
      · exact .inr (.inl ⟨n, by omega, rfl, hn, by simpa [hn, memRead, sinkHealthy] using h⟩)
      · simp [hn] at h
    · exact .inr (.inr (.inl ⟨by omega, rfl, by simpa [sinkHealthy] using h⟩))
    · exact .inr (.inr (.inr ⟨by omega, rfl, by simpa [sinkHealthy] using h⟩))

/-! ### Frames -/

theorem framed_nil (cfg : Config) : Framed cfg [] :=
  ⟨[], [], ⟨_, .inr ⟨true, rfl⟩, List.nil_suffix⟩, by simp, rfl⟩

/-- What is left of framed bytes after a prefix was sent is framed (10_state.md R30). -/
theorem framed_drop (cfg : Config) (l : List Byte) (h : Framed cfg l) (n : Nat) : Framed cfg (l.drop n) := by
  obtain ⟨first, frames, ⟨f, hf, hs⟩, hfr, rfl⟩ := h
  induction frames generalizing first f n with
  | nil =>
    simp
    exact ⟨first.drop n, [], ⟨f, hf, (List.drop_suffix _ _).trans hs⟩, by simp, by simp⟩
  | cons g gs ih =>
    by_cases hn : n ≤ first.length
    · rw [List.drop_append_of_le_length hn]
      exact ⟨first.drop n, g :: gs, ⟨f, hf, (List.drop_suffix _ _).trans hs⟩, hfr, rfl⟩
    · have : (first ++ (g :: gs).flatten).drop n = (g ++ gs.flatten).drop (n - first.length) := by
        rw [List.drop_append, List.drop_eq_nil_of_le (by omega)]; simp
      rw [this]
      exact ih (n - first.length) g g (hfr g (by simp)) List.suffix_rfl (fun x hx => hfr x (by simp [hx]))

/-- Framed bytes followed by a whole frame are framed (10_state.md R30). -/
theorem framed_append (cfg : Config) (l f : List Byte) (h : Framed cfg l) (hf : IsFrame cfg f) : Framed cfg (l ++ f) := by
  obtain ⟨first, frames, h1, hfr, rfl⟩ := h
  refine ⟨first, frames ++ [f], h1, fun x hx => ?_, by simp⟩
  rcases List.mem_append.mp hx with hx | hx
  · exact hfr x hx
  · exact (List.mem_singleton.mp hx) ▸ hf

end Sys2Proof.Machine
end

