-- ==== Sys2Proof/Laws/PerInstr.lean ====
section
/-! SUPPORT. Statements about every instruction as syntax, one lemma a constructor.

EncodeFits: the word of a well-formed instruction has no bit at or above the row's length (30_encoding.md R83, R86, R94). -/

namespace Sys2Proof.Laws.EncodeFits

def Statement (i : Instr) : Prop := ∀ cfg : Config, i.wellFormed cfg = true → i.encode < 2 ^ i.wordBits cfg

theorem codecEnckey (idx : Byte) (pr : Bool) : Statement (.codecEnckey idx pr) := by
  intro cfg _
  have := idx.isLt
  have := pr.toNat_lt
  simp only [Instr.encode, Instr.wordBits]
  omega

theorem codecEncenc (cw : Bool) : Statement (.codecEncenc cw) := by
  intro cfg _
  have := cw.toNat_lt
  simp only [Instr.encode, Instr.wordBits]
  omega

theorem codecDecode (x : Byte) : Statement (.codecDecode x) := by
  intro cfg _
  have := x.isLt
  simp only [Instr.encode, Instr.wordBits]
  omega

theorem dbSubmit (b : Byte) (st : Bool) (now : Nat) : Statement (.dbSubmit b st now) := by
  intro cfg h
  have := b.isLt
  have := st.toNat_lt
  simp only [Instr.wellFormed, decide_eq_true_iff] at h
  simp only [Instr.encode, Instr.wordBits, pow_add]
  omega

theorem dbRelease (b : Byte) (now : Nat) : Statement (.dbRelease b now) := by
  intro cfg h
  have := b.isLt
  simp only [Instr.wellFormed, decide_eq_true_iff] at h
  simp only [Instr.encode, Instr.wordBits, pow_add]
  omega

theorem txMatrix (snap : BitVec 32) : Statement (.txMatrix snap) := by
  intro cfg _
  have := snap.isLt
  simp only [Instr.encode, Instr.wordBits]
  omega

theorem txEncoder (cw : Bool) : Statement (.txEncoder cw) := by
  intro cfg _
  have := cw.toNat_lt
  simp only [Instr.encode, Instr.wordBits]
  omega

theorem txPump : Statement .txPump := by
  intro cfg _
  simp [Instr.encode, Instr.wordBits]

theorem rxCycle : Statement .rxCycle := by
  intro cfg _
  simp [Instr.encode, Instr.wordBits]

theorem qPush (v : Nat) : Statement (.qPush v) := by
  intro cfg h
  simp only [Instr.wellFormed, decide_eq_true_iff] at h
  simp only [Instr.encode, Instr.wordBits, pow_add]
  omega

theorem qPop : Statement .qPop := by
  intro cfg _
  simp [Instr.encode, Instr.wordBits]

theorem qPeek : Statement .qPeek := by
  intro cfg _
  simp [Instr.encode, Instr.wordBits]

theorem qAvail : Statement .qAvail := by
  intro cfg _
  simp [Instr.encode, Instr.wordBits]

theorem codecEncoderCw (low : BitVec 6) : Statement (.codecEncoderCw low) := by
  intro cfg _
  have := low.isLt
  simp only [Instr.encode, Instr.wordBits]
  omega

theorem codecEncoderCcw (low : BitVec 6) : Statement (.codecEncoderCcw low) := by
  intro cfg _
  have := low.isLt
  simp only [Instr.encode, Instr.wordBits]
  omega

theorem codecIllegal (bit7 bit5 : Bool) : Statement (.codecIllegal bit7 bit5) := by
  intro cfg _
  have := bit7.toNat_lt
  have := bit5.toNat_lt
  simp only [Instr.encode, Instr.wordBits]
  omega

theorem codecKey (bit7 pr : Bool) (idx : BitVec 5) : Statement (.codecKey bit7 pr idx) := by
  intro cfg _
  have := bit7.toNat_lt
  have := pr.toNat_lt
  have := idx.isLt
  simp only [Instr.encode, Instr.wordBits]
  omega

theorem wireMatrixFrame (f : BitVec 32) : Statement (.wireMatrixFrame f) := by
  intro cfg _
  have := f.isLt
  simp only [Instr.encode, Instr.wordBits]
  omega

theorem wireEncoderFrame (d : Byte) : Statement (.wireEncoderFrame d) := by
  intro cfg _
  have := d.isLt
  simp only [Instr.encode, Instr.wordBits]
  omega

theorem wireUnrecognizedTag (tag : Byte) : Statement (.wireUnrecognizedTag tag) := by
  intro cfg _
  have := tag.isLt
  simp only [Instr.encode, Instr.wordBits]
  omega

theorem wireDirCw : Statement .wireDirCw := by
  intro cfg _
  simp [Instr.encode, Instr.wordBits]

theorem wireDirCcw : Statement .wireDirCcw := by
  intro cfg _
  simp [Instr.encode, Instr.wordBits]

theorem wireDirMalformed (d : Byte) : Statement (.wireDirMalformed d) := by
  intro cfg _
  have := d.isLt
  simp only [Instr.encode, Instr.wordBits]
  omega

end Sys2Proof.Laws.EncodeFits
end

