-- ==== Sys2Proof/Laws/Queue.lean ====
section
/-! SUPPORT. Q: the cursors and the ghost counters, and what a Q command does to the state. -/

namespace Sys2Proof.Machine

/-! ### Remainders of counters less than N apart -/

theorem mod_eq_of_close {a b n : Nat} (h : a ≤ b) (hn : b < a + n) : a % n = b % n ↔ a = b := by
  constructor
  · intro hm
    have hd : n ∣ b - a := (Nat.modEq_iff_dvd' h).mp hm
    have := Nat.eq_zero_of_dvd_of_lt hd (by omega)
    omega
  · rintro rfl; rfl

theorem slotAfter_mod (cfg : Config) (k : Nat) : slotAfter cfg (k % cfg.qSlots) = (k + 1) % cfg.qSlots := by
  simp [slotAfter]

/-- Full, as seen: TC − h_obs = N − 1 (44_spsc_queue.md R221). -/
theorem qLooksFull_iff {s : State} {h : Nat} (hq : QInv s) (hN : 2 ≤ s.cfg.qSlots) (h1 : s.q.pSeen ≤ h) (h2 : h ≤ s.q.hc) :
    qLooksFull s.cfg s.q h = true ↔ s.q.tc - h = s.cfg.qSlots - 1 := by
  obtain ⟨-, -, -, ht, i1, i2, i3, i4⟩ := hq
  rw [qLooksFull, decide_eq_true_iff, ht, slotAfter_mod]
  have hh : h % s.cfg.qSlots = (h + s.cfg.qSlots) % s.cfg.qSlots := by simp
  rw [hh, mod_eq_of_close (by omega) (by omega)]
  omega

/-- Empty, as seen: t_obs = HC (44_spsc_queue.md R222). -/
theorem qLooksEmpty_iff {s : State} {k : Nat} (hq : QInv s) (hN : 2 ≤ s.cfg.qSlots) (h1 : s.q.cSeen ≤ k) (h2 : k ≤ s.q.tc) :
    qLooksEmpty s.cfg s.q k = true ↔ k = s.q.hc := by
  obtain ⟨-, -, hh, -, i1, i2, i3, i4⟩ := hq
  rw [qLooksEmpty, decide_eq_true_iff, hh, mod_eq_of_close (by omega) (by omega)]
  exact eq_comm

/-- The count of R224 is t_obs − HC. -/
theorem count_eq {n hc k : Nat} (h : hc ≤ k) (hk : k < hc + n) : (k % n + n - hc % n) % n = k - hc := by
  have hn : 0 < n := by omega
  have e1 := Nat.div_add_mod hc n
  have e2 := Nat.div_add_mod k n
  have l1 := Nat.mod_lt hc hn
  have l2 := Nat.mod_lt k hn
  by_cases hd : k / n = hc / n
  · rw [hd] at e2
    rw [show k % n + n - hc % n = (k - hc) + n by omega, Nat.add_mod_right, Nat.mod_eq_of_lt (by omega)]
  · have h3 : k / n = hc / n + 1 := by
      have a1 : hc / n ≤ k / n := Nat.div_le_div_right h
      have a2 : k / n < hc / n + 2 := by
        rw [Nat.div_lt_iff_lt_mul hn, Nat.add_mul, Nat.mul_comm]; omega
      omega
    rw [h3, Nat.mul_add, Nat.mul_one] at e2
    rw [show k % n + n - hc % n = k - hc by omega, Nat.mod_eq_of_lt (by omega)]

/-! ### The commands -/

theorem push_next {s t : State} {v : Nat} (h : push v s = .next t) :
    (qLooksFull s.cfg s.q (headObserved s) = true ∧
      t = (s.withQ (s.q.sawHead (headObserved s))).returns ⟨.full, .none⟩) ∨
    (qLooksFull s.cfg s.q (headObserved s) = false ∧
      t = (s.withQ ((s.q.sawHead (headObserved s)).pushed s.cfg v)).returns ⟨.ok, .none⟩) := by
  unfold push at h
  split at h
  · exact .inl ⟨‹_›, by simpa using h⟩
  · rename_i hq
    exact .inr ⟨Bool.eq_false_of_not_eq_true hq, by simpa using h⟩

theorem pop_next {s t : State} (h : pop s = .next t) :
    (qLooksEmpty s.cfg s.q (tailObserved s) = true ∧
      t = (s.withQ (s.q.sawTail (tailObserved s))).returns ⟨.empty, .none⟩) ∨
    (qLooksEmpty s.cfg s.q (tailObserved s) = false ∧
      t = (s.withQ ((s.q.sawTail (tailObserved s)).popped s.cfg)).returns ⟨.ok, .value s.q.front⟩) := by
  unfold pop at h
  split at h
  · exact .inl ⟨‹_›, by simpa using h⟩
  · rename_i hq
    exact .inr ⟨Bool.eq_false_of_not_eq_true hq, by simpa using h⟩

theorem peek_next {s t : State} (h : peek s = .next t) :
    (qLooksEmpty s.cfg s.q (tailObserved s) = true ∧
      t = (s.withQ (s.q.sawTail (tailObserved s))).returns ⟨.empty, .none⟩) ∨
    (qLooksEmpty s.cfg s.q (tailObserved s) = false ∧
      t = (s.withQ (s.q.sawTail (tailObserved s))).returns ⟨.ok, .value s.q.front⟩) := by
  unfold peek at h
  split at h
  · exact .inl ⟨‹_›, by simpa using h⟩
  · rename_i hq
    exact .inr ⟨Bool.eq_false_of_not_eq_true hq, by simpa using h⟩

theorem avail_next {s t : State} (h : avail s = .next t) : ∃ n, t = s.returns ⟨.ok, .count n⟩ :=
  ⟨_, by simpa [avail] using h⟩

theorem headObserved_bounds {s : State} (hq : QInv s) : s.q.pSeen ≤ headObserved s ∧ headObserved s ≤ s.q.hc :=
  observe_bounds hq.2.2.2.2.1 _

theorem tailObserved_bounds {s : State} (hq : QInv s) : s.q.cSeen ≤ tailObserved s ∧ tailObserved s ≤ s.q.tc :=
  observe_bounds hq.2.2.2.2.2.2.1 _

/-! ### The unconsumed elements -/

theorem queued_length (s : State) : (queued s).length = s.q.tc - s.q.hc := by simp [queued]

/-- A push that found room appends its value (44_spsc_queue.md R226). -/
theorem queued_push {s t : State} {h v : Nat} (hq : QInv s) (hN : 2 ≤ s.cfg.qSlots)
    (hroom : s.q.tc - s.q.hc < s.cfg.qSlots - 1) (hc : t.cfg = s.cfg) (ht : t.q = (s.q.sawHead h).pushed s.cfg v) :
    queued t = queued s ++ [v] := by
  obtain ⟨l, -, hh, htl, i1, i2, i3, i4⟩ := hq
  have e1 : t.q.tc = s.q.tc + 1 := by rw [ht]; rfl
  have e2 : t.q.hc = s.q.hc := by rw [ht]; rfl
  have e3 : t.q.slot = s.q.slot.set s.q.tail v := by rw [ht]; rfl
  have hlt : s.q.tail < s.q.slot.length := by rw [htl, l]; exact Nat.mod_lt _ (by omega)
  simp only [queued, e1, e2, e3, hc]
  rw [show s.q.tc + 1 - s.q.hc = (s.q.tc - s.q.hc) + 1 by omega, List.range_succ, List.map_append]
  congr 1
  · apply List.map_congr_left
    intro j hj
    rw [List.mem_range] at hj
    rw [List.getD_eq_getElem?_getD, List.getD_eq_getElem?_getD, List.getElem?_set_ne]
    rw [htl]
    intro hm
    have := (mod_eq_of_close (a := s.q.hc + j) (b := s.q.tc) (n := s.cfg.qSlots) (by omega) (by omega)).mp hm.symm
    omega
  · simp only [List.map_cons, List.map_nil]
    rw [show s.q.hc + (s.q.tc - s.q.hc) = s.q.tc by omega, ← htl, List.getD_eq_getElem?_getD, List.getElem?_set_self hlt]
    rfl

/-- A pop that found an element removes the oldest (44_spsc_queue.md R222). -/
theorem queued_pop {s t : State} {k : Nat} (hq : QInv s) (hne : s.q.hc < s.q.tc) (hc : t.cfg = s.cfg)
    (ht : t.q = (s.q.sawTail k).popped s.cfg) : queued s = s.q.front :: queued t := by
  obtain ⟨l, -, hh, htl, i1, i2, i3, i4⟩ := hq
  have e1 : t.q.tc = s.q.tc := by rw [ht]; rfl
  have e2 : t.q.hc = s.q.hc + 1 := by rw [ht]; rfl
  have e3 : t.q.slot = s.q.slot := by rw [ht]; rfl
  simp only [queued, e1, e2, e3, hc]
  rw [show s.q.tc - s.q.hc = (s.q.tc - (s.q.hc + 1)) + 1 by omega, List.range_succ_eq_map, List.map_cons, List.map_map]
  congr 1
  · simp [QUnit.front, hh]
  · apply List.map_congr_left
    intro j _
    simp only [Function.comp_apply, Nat.succ_eq_add_one]
    rw [show s.q.hc + (j + 1) = s.q.hc + 1 + j by omega]

/-- The unconsumed elements depend on SLOT and the two counters only. -/
theorem queued_same {s t : State} (hc : t.cfg = s.cfg) (h1 : t.q.tc = s.q.tc) (h2 : t.q.hc = s.q.hc) (h3 : t.q.slot = s.q.slot) :
    queued t = queued s := by
  simp [queued, *]

/-- The oldest element is the one at HEAD (10_state.md R37, R38). -/
theorem queued_head {s : State} (hq : QInv s) (hne : s.q.hc < s.q.tc) : (queued s).head? = some s.q.front := by
  obtain ⟨l, -, hh, htl, i1, i2, i3, i4⟩ := hq
  rw [queued, show s.q.tc - s.q.hc = (s.q.tc - (s.q.hc + 1)) + 1 by omega, List.range_succ_eq_map]
  simp [QUnit.front, hh]

end Sys2Proof.Machine
end

