-- ==== Sys2Proof/Tests/Slice0.lean ====
section
/-! SUPPORT. Tests, and a witness for every statement that has hypotheses.

The expected values are those of 95_test_vectors.md, or worked out by hand from the rule named. -/

namespace Sys2Proof.Tests

open Sys2Proof.Machine

/-! ### Small states -/

/-- The result record a step returned. -/
def recordOf : StepOutcome → Option Result
  | .next t => t.result
  | _ => none

/-- A part of the state a step reached. -/
def partOf {α : Type} (f : State → α) : StepOutcome → Option α
  | .next t => some (f t)
  | _ => none

/-- Why a step was refused. -/
def refusalOf : StepOutcome → Option Refusal
  | .refused r => some r
  | _ => none

/-- The reset state, with a port. -/
def at_ (p : Port) : State := State.reset.withPort p

/-- The reset state, issued to by CTX-B. -/
def atB : State := at_ { Port.idle with ctx := .b }

/-- The reset state, with one record of DB for button 3. -/
def withButton3 (d : DbRecord) : State := { State.reset with db := State.reset.db.set 3 d }

/-- The reset state, with these bytes pending in TXB and this answer of SINK. -/
def withPending (bytes : List Byte) (a : SinkAnswer) : State :=
  { at_ { Port.idle with sink := a } with
    tx := { buf := bytes ++ List.replicate (8 - bytes.length) 0#8, cur := bytes.length } }

/-- The reset state, with these bytes held in RXB and this answer of SOURCE. -/
def withHeld (bytes : List Byte) (a : SourceAnswer) : State :=
  { at_ { Port.idle with source := a } with
    rx := { State.reset.rx with buf := bytes ++ List.replicate (8 - bytes.length) 0#8, cur := bytes.length } }

/-- The reset state, with 7 and no more in Q, which the consumer has not seen, and a context and view. -/
def withOneElement (c : Ctx) (v : Option Nat) : State :=
  { at_ { Port.idle with ctx := c, view := v } with
    q := { slot := [7, 0, 0, 0, 0, 0, 0, 0], head := 0, tail := 1, tc := 1, hc := 0, pSeen := 0, cSeen := 0 } }

/-- The full queue of vector E3 after its line 11: elements 22 to 77, the pop not yet seen by the producer. -/
def afterLine11 (c : Ctx) (v : Option Nat) : State :=
  { at_ { Port.idle with ctx := c, view := v } with
    q := { slot := [11, 22, 33, 44, 55, 66, 77, 0], head := 1, tail := 7, tc := 7, hc := 1, pSeen := 0, cSeen := 7 } }

/-- The reset state, with one command of CTX-A pending. -/
def oneCommand (w : Nat) : State :=
  { State.reset with pending := [.command { word := w, port := Port.idle }] }

/-! ### WellFormed: an ill-formed term for each check -/

theorem test_wellFormed_now_too_wide :
    (Instr.dbSubmit 3#8 true (2 ^ 64)).wellFormed Config.standard = false ∧
    (Instr.dbRelease 3#8 (2 ^ 64)).wellFormed Config.standard = false := by decide

theorem test_wellFormed_element_too_wide : (Instr.qPush (2 ^ 32)).wellFormed Config.standard = false := by decide

theorem test_wellFormed_reserved_index : (Instr.codecKey false true 31#5).wellFormed Config.standard = false := by decide

theorem test_wellFormed_tags :
    (Instr.wireUnrecognizedTag 0xFF#8).wellFormed Config.standard = false ∧
    (Instr.wireUnrecognizedTag 0xFE#8).wellFormed Config.standard = false := by decide

theorem test_wellFormed_directions :
    (Instr.wireDirMalformed 0x00#8).wellFormed Config.standard = false ∧
    (Instr.wireDirMalformed 0x01#8).wellFormed Config.standard = false := by decide

/-! ### Decoding: a word for every constructor -/

/-- Words of 95_test_vectors.md E1, E2 and P4. -/
theorem test_decode_codec_words :
    decode Config.standard 0x10500 = .ok (.codecEnckey 5#8 true) ∧
    decode Config.standard 0x1FF00 = .ok (.codecEnckey 255#8 true) ∧
    decode Config.standard 0x101 = .ok (.codecEncenc true) ∧
    decode Config.standard 0x001 = .ok (.codecEncenc false) ∧
    decode Config.standard 0x4002 = .ok (.codecDecode 0x40#8) := ⟨rfl, rfl, rfl, rfl, rfl⟩

/-- Words of 95_test_vectors.md P1 and §2.2. -/
theorem test_decode_debounce_words :
    decode Config.standard 0x27100310 = .ok (.dbSubmit 3#8 false 5000) ∧
    decode Config.standard 0x75310310 = .ok (.dbSubmit 3#8 true 15000) ∧
    decode Config.standard 0x11E10 = .ok (.dbSubmit 30#8 true 0) ∧
    decode Config.standard 0x4E200411 = .ok (.dbRelease 4#8 20000) ∧
    decode Config.standard 0xFF11 = .ok (.dbRelease 255#8 0) := ⟨rfl, rfl, rfl, rfl, rfl⟩

/-- Words of 95_test_vectors.md E7, E8, §2.3 and P3. -/
theorem test_decode_link_words :
    decode Config.standard 0x800020 = .ok (.txMatrix 0x00008000#32) ∧
    decode Config.standard 0xFFFFFFFF20 = .ok (.txMatrix 0xFFFFFFFF#32) ∧
    decode Config.standard 0x021 = .ok (.txEncoder false) ∧
    decode Config.standard 0x121 = .ok (.txEncoder true) ∧
    decode Config.standard 0x22 = .ok .txPump ∧
    decode Config.standard 0x30 = .ok .rxCycle := ⟨rfl, rfl, rfl, rfl, rfl, rfl⟩

/-- Words of 95_test_vectors.md E3 and P2. -/
theorem test_decode_queue_words :
    decode Config.standard 0x5840 = .ok (.qPush 88) ∧
    decode Config.standard 0xA140 = .ok (.qPush 0xA1) ∧
    decode Config.standard 0x41 = .ok .qPop ∧
    decode Config.standard 0x42 = .ok .qPeek ∧
    decode Config.standard 0x43 = .ok .qAvail := ⟨rfl, rfl, rfl, rfl, rfl⟩

/-- Reserved words of 95_test_vectors.md §2.5 and §2.6. -/
theorem test_decode_reserved_words :
    decode Config.standard 0x03 = .error (.reservedOpsel 0x03#8) ∧
    decode Config.standard 0x44 = .error (.reservedOpsel 0x44#8) ∧
    decode Config.standard 0x50 = .error (.reservedOpsel 0x50#8) := ⟨rfl, rfl, rfl⟩

/-- Bytes of 30_encoding.md R87 and R88 and of 40_codec.md R123. -/
theorem test_decode_codec_bytes :
    decodeCodecByte 0xFF#8 = .codecEncoderCw 0x3F#6 ∧
    decodeCodecByte 0x7F#8 = .codecEncoderCcw 0x3F#6 ∧
    decodeCodecByte 0x9F#8 = .codecIllegal true false ∧
    decodeCodecByte 0x3F#8 = .codecIllegal false true ∧
    decodeCodecByte 0x25#8 = .codecKey false true 5#5 ∧
    decodeCodecByte 0x00#8 = .codecKey false false 0#5 := by decide

/-- Frames of 95_test_vectors.md E7, E8 and §2.4, the first byte in bits [7:0]. -/
theorem test_decode_wire_frames :
    decodeWireFrame 0x00008000FF = .wireMatrixFrame 0x00008000#32 ∧
    decodeWireFrame 0x3FFFFFFFFF = .wireMatrixFrame 0x3FFFFFFF#32 ∧
    decodeWireFrame 0x01FE = .wireEncoderFrame 0x01#8 ∧
    decodeWireFrame 0x12 = .wireUnrecognizedTag 0x12#8 ∧
    decodeWireDir 0x00#8 = .wireDirCw ∧
    decodeWireDir 0x01#8 = .wireDirCcw ∧
    decodeWireDir 0x07#8 = .wireDirMalformed 0x07#8 := by decide

/-- A table word with its bits above nbits 0, and the step that runs it first (E1). -/
theorem test_table_word :
    decodeTableWord 17 0x10500 = some (.codecEnckey 5#8 true) ∧
    decodeTableWord 8 0x44 = none ∧
    recordOf (step (State.reset.withFetchWord 17 0x10500)) = some ⟨.ok, .byte 0x25#8⟩ ∧
    recordOf (step (State.reset.withFetchWord 8 0x41)) = some ⟨.empty, .none⟩ := by decide

/-! ### CODEC (95_test_vectors.md E1, E2, §2.6) -/

theorem test_enckey :
    recordOf (exec (.codecEnckey 30#8 true) State.reset) = some ⟨.ok, .byte 0x3E#8⟩ ∧
    recordOf (exec (.codecEnckey 31#8 false) State.reset) = some ⟨.badIndex, .none⟩ := by decide

theorem test_encenc : recordOf (exec (.codecEncenc true) State.reset) = some ⟨.ok, .byte 0xC0#8⟩ := by decide

/-- The marker comes before the reserved index (0x5F), and bit 7 is ignored in a key (0x85). -/
theorem test_codec_decode :
    recordOf (exec (.codecDecode 0x5F#8) atB) = some ⟨.ok, .encoder false⟩ ∧
    recordOf (exec (.codecDecode 0xBF#8) atB) = some ⟨.illegal, .none⟩ ∧
    recordOf (exec (.codecDecode 0x85#8) atB) = some ⟨.ok, .key 5#5 false⟩ := by decide

/-! ### DB (95_test_vectors.md E5, §2.2) -/

theorem test_submit_rejects_and_quarantines :
    partOf (fun t => (t.result, t.db[3]?)) (exec (.dbSubmit 3#8 false 5000) (withButton3 ⟨true, 0, false, false⟩)) =
      some (some ⟨.ok, .reject⟩, some ⟨true, 5000, true, false⟩) := by decide

theorem test_submit_accepts_at_the_window :
    partOf (fun t => (t.result, t.db[3]?)) (exec (.dbSubmit 3#8 false 10000) (withButton3 ⟨true, 0, true, true⟩)) =
      some (some ⟨.ok, .accept false⟩, some ⟨true, 10000, false, true⟩) := by decide

theorem test_release_waits_for_the_window :
    recordOf (exec (.dbRelease 3#8 14999) (withButton3 ⟨true, 5000, true, false⟩)) = some ⟨.ok, .noVerdict⟩ ∧
    recordOf (exec (.dbRelease 3#8 15000) (withButton3 ⟨true, 5000, true, false⟩)) = some ⟨.ok, .accept false⟩ := by decide

/-- A clock that went back releases (35999 to 100); the anchor moves. -/
theorem test_release_backward_clock :
    partOf (fun t => (t.result, t.db[3]?)) (exec (.dbRelease 3#8 100) (withButton3 ⟨true, 35999, true, true⟩)) =
      some (some ⟨.ok, .accept true⟩, some ⟨true, 100, false, true⟩) := by decide

/-! ### TX (95_test_vectors.md E7, §2.3) -/

theorem test_tx_matrix_masks_the_high_bits :
    partOf txPending (exec (.txMatrix 0xFFFFFFFF#32) State.reset) = some [0xFF#8, 0xFF#8, 0xFF#8, 0xFF#8, 0x3F#8] ∧
    partOf txPending (exec (.txMatrix 0x00FEFF01#32) State.reset) = some [0xFF#8, 0x01#8, 0xFF#8, 0xFE#8, 0x00#8] := by
  decide

theorem test_tx_encoder :
    partOf txPending (exec (.txEncoder false) (withPending [0xFF#8] .wouldBlock)) = some [0xFF#8, 0xFE#8, 0x01#8] ∧
    recordOf (exec (.txEncoder true) (withPending [0xFF#8, 0#8, 0x80#8, 0#8, 0#8, 0xFE#8, 1#8] .wouldBlock)) =
      some ⟨.full, .none⟩ := by decide

theorem test_pump_partial :
    partOf (fun t => (txPending t, t.wire))
      (exec .txPump (withPending [0xFF#8, 0#8, 0x80#8, 0#8, 0#8, 0xFE#8, 1#8] (.written 3))) =
      some ([0#8, 0#8, 0xFE#8, 1#8], [0xFF#8, 0#8, 0x80#8]) := by decide

theorem test_pump_over_contract :
    refusalOf (exec .txPump (withPending [0#8, 0#8, 0xFE#8, 1#8] (.written 5))) = some .sinkContract ∧
    recordOf (exec .txPump (withPending [0#8] .error)) = some ⟨.sinkError, .pumped 0 false⟩ := by decide

/-! ### RX (95_test_vectors.md E6, §2.4) -/

theorem test_rx_resync_then_matrix :
    partOf (fun t => (t.result, t.rx.cur, t.rx.cntBytes, t.rx.cntResync))
      (exec .rxCycle (withHeld [] (.read [0x12#8, 0x34#8, 0xFF#8, 0x00#8, 0x80#8, 0x00#8, 0x00#8]))) =
      some (some ⟨.ok, .matrix 0x00008000#32 [⟨2, 3, true⟩]⟩, 0, 7, 1) := by decide

theorem test_rx_malformed_drops_the_rest :
    partOf (fun t => (t.result, t.rx.cur, t.rx.cntMalformed)) (exec .rxCycle (withHeld [0xFE#8] (.read [0x07#8, 0xFF#8]))) =
      some (some ⟨.ok, .nothing⟩, 0, 1) := by decide

theorem test_wire_matrix_frame :
    recordOf (exec (.wireMatrixFrame 0xC0000001#32) State.reset) =
      some ⟨.ok, .matrix 0x00000001#32 [⟨0, 0, true⟩]⟩ := by decide

theorem test_wire_directions :
    recordOf (exec (.wireEncoderFrame 0x00#8) State.reset) = some ⟨.ok, .encoder true⟩ ∧
    recordOf (exec .wireDirCw State.reset) = some ⟨.ok, .encoder true⟩ ∧
    recordOf (exec .wireDirCcw State.reset) = some ⟨.ok, .encoder false⟩ ∧
    partOf (fun t => t.rx.cntMalformed) (exec (.wireDirMalformed 0x02#8) State.reset) = some 1 := by decide

/-- `55 FF 00` held: resync to offset 1, then wait. -/
theorem test_wire_unrecognized_tag :
    partOf (fun t => (rxHeld t, t.rx.cntResync))
      (exec (.wireUnrecognizedTag 0x55#8) (withHeld [0x55#8, 0xFF#8, 0x00#8] .wouldBlock)) =
      some ([0xFF#8, 0x00#8], 1) := by decide

/-! ### Q (95_test_vectors.md E3, §2.5) -/

/-- Line 12 (stale view: FULL) and line 13 (current view: OK, TAIL wraps). -/
theorem test_push_spurious_full_then_wrap :
    recordOf (exec (.qPush 88) (afterLine11 .a (some 0))) = some ⟨.full, .none⟩ ∧
    partOf (fun t => (t.result, t.q.tail, t.q.tc, t.q.pSeen)) (exec (.qPush 88) (afterLine11 .a none)) =
      some (some ⟨.ok, .none⟩, 0, 8, 1) := by decide

theorem test_push_by_the_consumer : refusalOf (exec (.qPush 5) (withOneElement .b none)) = some .notProducer := by decide

theorem test_pop_views :
    recordOf (exec .qPop (withOneElement .b (some 0))) = some ⟨.empty, .none⟩ ∧
    partOf (fun t => (t.result, t.q.head, t.q.hc, t.q.cSeen)) (exec .qPop (withOneElement .b none)) =
      some (some ⟨.ok, .value 7⟩, 1, 1, 1) := by decide

theorem test_peek :
    partOf (fun t => (t.result, t.q.head, t.q.cSeen)) (exec .qPeek (withOneElement .b none)) =
      some (some ⟨.ok, .value 7⟩, 0, 1) := by decide

/-- Line 14: the count after the wrap is 7; a stale view counts 0 and leaves c_seen. -/
theorem test_avail :
    partOf (fun t => (t.result, t.q.cSeen)) (exec .qAvail (withOneElement .b (some 0))) = some (some ⟨.ok, .count 0⟩, 0) ∧
    recordOf (exec .qAvail { afterLine11 .b none with
      q := ⟨[11, 22, 33, 44, 55, 66, 77, 88], 1, 0, 8, 1, 1, 7⟩ }) = some ⟨.ok, .count 7⟩ := by decide

/-! ### Construction (70_reset_and_hazards.md R283, 60_exceptions.md R256 item 6, R268) -/

/-- Q constructed again: with both ports idle it is empty and the rest is as before; with either in use it is refused. -/
theorem test_construct_queue :
    partOf (fun t => (t.q, t.db[3]?)) (construct .q ⟨false, false⟩ { afterLine11 .a none with db := [] }) =
      some (⟨[0, 0, 0, 0, 0, 0, 0, 0], 0, 0, 0, 0, 0, 0⟩, none) ∧
    refusalOf (construct .q ⟨true, false⟩ State.reset) = some .qInUse ∧
    refusalOf (construct .q ⟨false, true⟩ State.reset) = some .qInUse := by decide

theorem test_power_up :
    partOf (fun t => (t.q.tc, t.tx.cur, t.pending))
      (step { afterLine11 .a none with tx := ⟨[1#8, 2#8, 3#8, 4#8, 5#8, 6#8, 7#8, 8#8], 8⟩, pending := [.powerUp] }) =
      some (0, 0, []) := by decide

/-! ### Witnesses: states and operands that meet the hypotheses of each statement

A witness is a theorem `witness_<statement>`; where a statement has several clauses, each is met, at the ends of its range. -/

/-- The reset state meets every invariant. -/
theorem witness_Inv : Inv State.reset where
  cfgOk := by decide
  db := by unfold DbInv; decide
  tx := by unfold TxInv; decide
  rx := ⟨by decide, .inl rfl, fun i _ => by simp [State.reset, State.construct, RxUnit.constructed], by decide, by decide,
    by decide, by decide⟩
  q := by unfold QInv; decide

/-- RX of the reset state, with bytes held that are aligned. -/
theorem rxInv_held (bytes : List Byte) (a : SourceAnswer) (h : RxAligned (withHeld bytes a).rx) (hl : bytes.length ≤ 8) :
    RxInv (withHeld bytes a) :=
  ⟨by simp [withHeld, at_, State.withPort, State.reset, State.construct, Config.standard]; omega, h,
    fun i _ => by simp [withHeld, State.reset, State.construct, RxUnit.constructed],
    Nat.two_pow_pos _, Nat.two_pow_pos _, Nat.two_pow_pos _, Nat.two_pow_pos _⟩

theorem rxAligned_empty (a : SourceAnswer) : RxAligned (withHeld [] a).rx := .inl rfl

/-- At the greatest values their fields admit. -/
theorem witness_DecodeOfEncodeIsTheInstruction :
    (Instr.qPush (2 ^ 32 - 1)).wellFormed Config.standard = true ∧
    (Instr.dbSubmit 255#8 true (2 ^ 64 - 1)).wellFormed Config.standard = true ∧
    (Instr.codecKey true true 30#5).wellFormed Config.standard = true ∧
    (Instr.wireUnrecognizedTag 0xFD#8).wellFormed Config.standard = true ∧
    (Instr.wireDirMalformed 0x02#8).wellFormed Config.standard = true := by decide

theorem witness_EncodeOfDecodeIsTheWord : decode Config.standard 0xFFFFFFFFFF = .error (.reservedOpsel 0xFF#8) ∧
    decode Config.standard 0xFFFFFFFFFF40 = .ok (.qPush 0xFFFFFFFF) := ⟨rfl, rfl⟩

theorem witness_ReservedOpselIsRefused :
    configOk (oneCommand 0x44).cfg = true ∧
    (oneCommand 0x44).pending = .command { word := 0x44, port := Port.idle } :: [] ∧ 0x44 % 256 = (0x44#8).toNat ∧
    0x44#8 ∉ [0x00#8, 0x01#8, 0x02#8, 0x10#8, 0x11#8, 0x20#8, 0x21#8, 0x22#8, 0x30#8, 0x40#8, 0x41#8, 0x42#8, 0x43#8] := by
  decide

theorem witness_StepRunsTheDecodedCommand :
    configOk (oneCommand 0x30).cfg = true ∧
    (oneCommand 0x30).pending = .command { word := 0x30, port := Port.idle } :: [] ∧
    decode (oneCommand 0x30).cfg 0x30 = .ok .rxCycle := ⟨by decide, rfl, rfl⟩

theorem witness_StepWithoutStimulusChangesNothing :
    configOk State.reset.cfg = true ∧ State.reset.pending = [] := by decide

/-- Each disjunct, at its boundary. -/
theorem witness_BrokenConfigurationIsRefused :
    32 < ({ Config.standard with numRows := 3, numCols := 11 } : Config).numRows * 11 ∧
    ({ Config.standard with numCols := 0 } : Config).numCols < 1 ∧
    ({ Config.standard with numRows := 0 } : Config).numRows < 1 ∧
    ({ Config.standard with txCap := 4 } : Config).txCap < 5 ∧
    ({ Config.standard with rxCap := 4 } : Config).rxCap < 5 ∧
    ({ Config.standard with qSlots := 1 } : Config).qSlots < 2 := by decide

theorem witness_ConstructionTouchesOneUnit :
    ∀ (u : UnitId) (ports : PortUse), ∃ s : State, configOk s.cfg = true ∧ s.pending = .construct u ports :: [] :=
  fun u ports => ⟨{ State.reset with pending := [.construct u ports] }, by show configOk Config.standard = true; decide, rfl⟩

theorem witness_PowerUpConstructsEveryUnit :
    configOk ({ afterLine11 .a none with pending := [.powerUp] } : State).cfg = true ∧
    ({ afterLine11 .a none with pending := [.powerUp] } : State).pending = .powerUp :: [] := by decide

theorem witness_ConstructionMeetsTheInvariant : configOk Config.standard = true := by decide

theorem inv_pending (l : List Stimulus) : Inv { State.reset with pending := l } :=
  ⟨witness_Inv.cfgOk, witness_Inv.db, witness_Inv.tx, witness_Inv.rx, witness_Inv.q⟩

/-- A step that runs a command, Q_PUSH 88. -/
theorem witness_EveryStepKeepsTheInvariant : ∃ t, Inv (oneCommand 0x5840) ∧ step (oneCommand 0x5840) = .next t :=
  ⟨_, inv_pending _, rfl⟩

theorem witness_NoStepChangesConfigurationOrBinding : ∃ t, step (oneCommand 0x5840) = .next t := ⟨_, rfl⟩

/-- One instruction of each unit. -/
theorem witness_InstructionsTouchOnlyTheirUnit :
    (∃ t, exec (.codecDecode 0xC0#8) State.reset = .next t) ∧ (∃ t, exec (.dbSubmit 3#8 true 0) State.reset = .next t) ∧
    (∃ t, exec (.txEncoder true) State.reset = .next t) ∧ (∃ t, exec .rxCycle State.reset = .next t) ∧
    (∃ t, exec (.qPush 7) State.reset = .next t) := ⟨⟨_, rfl⟩, ⟨_, rfl⟩, ⟨_, rfl⟩, ⟨_, rfl⟩, ⟨_, rfl⟩⟩

/-- A command of each owner, and the agents at the bounds of their contracts. -/
theorem witness_EveryPermittedInstructionCompletes :
    MayIssue State.reset.bind State.reset.port.ctx (.dbRelease 3#8 0) ∧
    MayIssue State.reset.bind State.reset.port.ctx (.qPush 7) ∧ MayIssue atB.bind atB.port.ctx .qPop ∧
    (MayIssue (withPending [1#8, 2#8] (.written 2)).bind .a .txPump ∧ SinkKeepsContract (withPending [1#8, 2#8] (.written 2))) ∧
    (MayIssue (withHeld [] (.read (List.replicate 8 0#8))).bind .a .rxCycle ∧
      SourceKeepsContract (withHeld [] (.read (List.replicate 8 0#8)))) := by
  refine ⟨rfl, rfl, rfl, ⟨rfl, ?_⟩, ⟨rfl, ?_⟩⟩
  · intro n h
    cases h
    decide
  · intro bytes h
    cases h
    decide

/-- A failure of each kind: without a write, with `p_seen` moved, with `c_seen` moved. -/
theorem witness_FailureWritesNoState :
    recordOf (exec (.dbSubmit 30#8 true 0) State.reset) = some ⟨.range, .none⟩ ∧
    recordOf (exec (.qPush 88) (afterLine11 .a (some 0))) = some ⟨.full, .none⟩ ∧
    recordOf (exec .qPop (withOneElement .b (some 0))) = some ⟨.empty, .none⟩ := by decide

theorem witness_WrongContextIsRefused :
    atB.port.ctx ≠ atB.bind.dbOwner ∧ atB.port.ctx ≠ atB.bind.txOwner ∧ atB.port.ctx ≠ atB.bind.rxOwner ∧
    atB.port.ctx ≠ atB.bind.producer ∧ State.reset.port.ctx = State.reset.bind.producer ∧
    unitOf (.codecEncoderCw 0#6) = .codec := by decide

theorem witness_EnckeyPacksIndexAndPressed : 31 ≤ (31#8).toNat ∧ (30#8).toNat ≤ 30 := by decide

theorem witness_DecodeClassifiesTheByte :
    (0x40#8).getLsbD 6 = true ∧
    ((0x9F#8).getLsbD 6 = false ∧ (0x9F#8).extractLsb' 0 5 = 31#5) ∧
    ((0x9E#8).getLsbD 6 = false ∧ (0x9E#8).extractLsb' 0 5 ≠ 31#5) := by decide

/-- Two keys that the encoder takes, and for the injectivity clauses an encoding equal to itself. -/
theorem witness_CodecRoundTrip :
    (30#8).toNat ≤ 30 ∧ (0#8).toNat ≤ 30 ∧
    exec (.codecEnckey 30#8 true) State.reset = exec (.codecEnckey 30#8 true) State.reset ∧
    exec (.codecEncenc true) State.reset = exec (.codecEncenc true) State.reset := ⟨by decide, by decide, rfl, rfl⟩

/-! #### DB -/

theorem witness_SubmitAcceptsTheFirstCandidate :
    State.reset.port.ctx = State.reset.bind.dbOwner ∧ (29#8).toNat < State.reset.cfg.numButtons ∧
    (dbRecord State.reset 29#8).laValid = false := by decide

theorem witness_SubmitAcceptsABackwardClock :
    let s := withButton3 ⟨true, 5000, true, false⟩
    s.port.ctx = s.bind.dbOwner ∧ (3#8).toNat < s.cfg.numButtons ∧ (dbRecord s 3#8).laValid = true ∧
    4999 < (dbRecord s 3#8).ts := by decide

/-- Both clauses, at both ends of the window. -/
theorem witness_SubmitRejectsInsideTheWindow :
    let s := withButton3 ⟨true, 5000, true, false⟩
    s.port.ctx = s.bind.dbOwner ∧ (3#8).toNat < s.cfg.numButtons ∧ s.db.length = s.cfg.numButtons ∧
    (dbRecord s 3#8).laValid = true ∧
    ((dbRecord s 3#8).ts ≤ 5000 ∧ 5000 - (dbRecord s 3#8).ts < s.cfg.window) ∧
    ((dbRecord s 3#8).ts ≤ 14999 ∧ 14999 - (dbRecord s 3#8).ts < s.cfg.window) ∧
    ((dbRecord s 3#8).qValid = true ∧ (dbRecord s 3#8).qState = false) ∧
    ¬((dbRecord s 3#8).qValid = true ∧ (dbRecord s 3#8).qState = true) := by decide

theorem witness_SubmitAcceptsAfterTheWindow :
    let s := withButton3 ⟨true, 5000, true, false⟩
    s.port.ctx = s.bind.dbOwner ∧ (3#8).toNat < s.cfg.numButtons ∧ (dbRecord s 3#8).laValid = true ∧
    (dbRecord s 3#8).ts ≤ 15000 ∧ s.cfg.window ≤ 15000 - (dbRecord s 3#8).ts := by decide

/-- Each clause: out of range, nothing quarantined, clock back, window over, inside the window. -/
theorem witness_ReleaseSurfacesTheQuarantine :
    let s := withButton3 ⟨true, 5000, true, false⟩
    s.port.ctx = s.bind.dbOwner ∧ s.db.length = s.cfg.numButtons ∧ s.cfg.numButtons ≤ (30#8).toNat ∧
    ((29#8).toNat < s.cfg.numButtons ∧ (dbRecord s 29#8).qValid = false) ∧
    ((3#8).toNat < s.cfg.numButtons ∧ (dbRecord s 3#8).qValid = true ∧ 4999 < (dbRecord s 3#8).ts) ∧
    ((dbRecord s 3#8).ts ≤ 15000 ∧ s.cfg.window ≤ 15000 - (dbRecord s 3#8).ts) ∧
    ((dbRecord s 3#8).ts ≤ 14999 ∧ 14999 - (dbRecord s 3#8).ts < s.cfg.window) := by decide

theorem witness_ButtonOutOfRangeWritesNothing :
    State.reset.port.ctx = State.reset.bind.dbOwner ∧ State.reset.cfg.numButtons ≤ (30#8).toNat := by decide

/-- An acceptance at 0; then 9999 is inside its window and 10000 is not. -/
theorem witness_TwoCandidatesWithinTheWindowCollapse :
    DbInv State.reset ∧
    ∃ u, exec (.dbSubmit 3#8 true 0) State.reset = .next u ∧ u.result = some ⟨.ok, .accept true⟩ ∧
      u.port.ctx = u.bind.dbOwner ∧ 0 ≤ 9999 ∧ 9999 < 0 + State.reset.cfg.window ∧ 0 + State.reset.cfg.window ≤ 10000 :=
  ⟨witness_Inv.db, _, rfl, rfl, rfl, by decide, by decide, by decide⟩

theorem dbInv_button3 : DbInv (withButton3 ⟨true, 0, false, false⟩) := by unfold DbInv; decide

/-- A rejection newly quarantined at 5000; releases at 5000 and 14999 between, and at 15000 after. -/
theorem witness_QuarantineSurfacesOnceTheWindowReElapses :
    let s := withButton3 ⟨true, 0, false, false⟩
    DbInv s ∧ ¬((dbRecord s 3#8).qValid = true ∧ (dbRecord s 3#8).qState = false) ∧
    (∀ n ∈ [5000, 14999], 5000 ≤ n ∧ n < 5000 + s.cfg.window) ∧ 5000 + s.cfg.window ≤ 15000 ∧
    ∃ u, exec (.dbSubmit 3#8 false 5000) s = .next u ∧ u.result = some ⟨.ok, .reject⟩ ∧ u.port.ctx = u.bind.dbOwner :=
  ⟨dbInv_button3, by decide, by decide, by decide, _, rfl, rfl, rfl⟩

/-- Two states that differ in another button's record and agree in this one's, and a context that is not the owner. -/
theorem witness_DbCommandsAreIsolatedToTheirButton :
    let s := State.reset
    let s' := withButton3 ⟨true, 0, true, true⟩
    (∃ t, exec (.dbSubmit 4#8 true 0) s = .next t) ∧ s'.cfg = s.cfg ∧ s'.bind = s.bind ∧ s'.port.ctx = s.port.ctx ∧
    s.db.length = s.cfg.numButtons ∧ s'.db.length = s'.cfg.numButtons ∧ dbRecord s' 4#8 = dbRecord s 4#8 ∧
    atB.port.ctx ≠ atB.bind.dbOwner := ⟨⟨_, rfl⟩, by decide⟩

/-! #### TX -/

/-- With 4 and with 5 bytes left. -/
theorem witness_TxMatrixQueuesTheWholeFrame :
    let full := withPending [1#8, 2#8, 3#8, 4#8] .wouldBlock
    let room := withPending [1#8, 2#8, 3#8] .wouldBlock
    (TxInv full ∧ full.port.ctx = full.bind.txOwner ∧ full.cfg.txCap - full.tx.cur < 5) ∧
    (TxInv room ∧ room.port.ctx = room.bind.txOwner ∧ 5 ≤ room.cfg.txCap - room.tx.cur) ∧
    (∀ i, (0x3FFFFFFF#32).getLsbD i = (decide (i < room.cfg.numCells) && (0xFFFFFFFF#32).getLsbD i)) := by
  refine ⟨by unfold TxInv; decide, by unfold TxInv; decide, fun i => ?_⟩
  by_cases hi : i < 32
  · have : ∀ i < 32, (0x3FFFFFFF#32).getLsbD i = (decide (i < 30) && (0xFFFFFFFF#32).getLsbD i) := by decide
    exact this i hi
  · rw [BitVec.getLsbD_of_ge _ _ (Nat.not_lt.mp hi), BitVec.getLsbD_of_ge _ _ (Nat.not_lt.mp hi), Bool.and_false]

/-- With 1 and with 2 bytes left. -/
theorem witness_TxEncoderQueuesTheWholeFrame :
    let full := withPending [1#8, 2#8, 3#8, 4#8, 5#8, 6#8, 7#8] .wouldBlock
    let room := withPending [1#8, 2#8, 3#8, 4#8, 5#8, 6#8] .wouldBlock
    (TxInv full ∧ full.port.ctx = full.bind.txOwner ∧ full.cfg.txCap - full.tx.cur < 2) ∧
    (TxInv room ∧ room.port.ctx = room.bind.txOwner ∧ 2 ≤ room.cfg.txCap - room.tx.cur) := by
  unfold TxInv
  decide

/-- Nothing pending; all sent; one more than all; WouldBlock; Error. -/
theorem witness_PumpSendsAPrefixOnce :
    (TxInv State.reset ∧ State.reset.port.ctx = State.reset.bind.txOwner ∧ State.reset.tx.cur = 0) ∧
    ∀ a ∈ [SinkAnswer.written 4, .written 5, .wouldBlock, .error],
      let s := withPending [0#8, 0#8, 0xFE#8, 1#8] a
      TxInv s ∧ s.port.ctx = s.bind.txOwner ∧ 0 < s.tx.cur ∧ s.port.sink = a ∧ 4 ≤ s.tx.cur ∧ s.tx.cur < 5 := by
  unfold TxInv
  decide

/-- A run of one command, TX_ENCODER clockwise. -/
theorem witness_NoByteOfTheStreamIsLost :
    ∃ t, Inv (oneCommand 0x121) ∧
      CommandRun (oneCommand 0x121) ([] ++ [(.txEncoder true, ⟨.ok, .none⟩)]) t :=
  ⟨_, inv_pending _, .command (c := { word := 0x121, port := Port.idle }) (rest := []) .none rfl rfl rfl rfl⟩

/-- A step that queues a frame behind nothing. -/
theorem witness_PendingBytesStayFramed :
    ∃ t, Inv (oneCommand 0x121) ∧ Framed (oneCommand 0x121).cfg (txPending (oneCommand 0x121)) ∧
      step (oneCommand 0x121) = .next t :=
  ⟨_, inv_pending _, ⟨[], [], ⟨_, .inr ⟨true, rfl⟩, List.nil_suffix⟩, by simp, rfl⟩, rfl⟩

/-! #### RX -/

/-- WouldBlock, Error and zero bytes; and one byte more than there is space. -/
theorem witness_RxWithoutDataWritesNothing :
    (∀ a ∈ [SourceAnswer.wouldBlock, .error, .read []],
      (withHeld [] a).port.ctx = (withHeld [] a).bind.rxOwner ∧ (withHeld [] a).port.source = a) ∧
    (let s := withHeld [0xFF#8, 1#8, 0xFE#8, 5#8] (.read [0#8, 0#8, 0#8, 0#8, 0#8])
     s.port.ctx = s.bind.rxOwner ∧ s.port.source = .read [0#8, 0#8, 0#8, 0#8, 0#8] ∧ s.cfg.rxCap - s.rx.cur < 5) := by decide

/-- Four bytes of a matrix frame, and one of an encoder frame. -/
theorem witness_RxWaitsForAWholeFrame :
    (let s := withHeld [0xFF#8, 1#8] (.read [0#8, 0#8])
     RxInv s ∧ s.port.ctx = s.bind.rxOwner ∧ s.port.source = .read [0#8, 0#8] ∧ 2 ≤ s.cfg.rxCap - s.rx.cur ∧
      (rxHeld s ++ [0#8, 0#8]).head? = some 0xFF#8 ∧ s.rx.cur + 2 < 5) ∧
    (let s := withHeld [] (.read [0xFE#8])
     RxInv s ∧ s.port.ctx = s.bind.rxOwner ∧ s.port.source = .read [0xFE#8] ∧ 1 ≤ s.cfg.rxCap - s.rx.cur ∧
      (rxHeld s ++ [0xFE#8]).head? = some 0xFE#8 ∧ s.rx.cur + 1 < 2) :=
  ⟨⟨rxInv_held _ _ (.inr (.inl (by decide))) (by decide), by decide⟩,
   ⟨rxInv_held _ _ (rxAligned_empty _) (by decide), by decide⟩⟩

/-- The last byte of a matrix frame completes it (§2.4). -/
theorem witness_RxDecodesAMatrixFrame :
    let s := withHeld [0xFF#8, 1#8, 0#8, 0#8] (.read [0xC0#8, 0x55#8])
    RxInv s ∧ s.port.ctx = s.bind.rxOwner ∧ s.port.source = .read [0xC0#8, 0x55#8] ∧ 2 ≤ s.cfg.rxCap - s.rx.cur ∧
    rxHeld s ++ [0xC0#8, 0x55#8] = 0xFF#8 :: 1#8 :: 0#8 :: 0#8 :: 0xC0#8 :: [0x55#8] ∧
    (∀ i, (1#32).getLsbD i = (decide (i < s.cfg.numCells) && (0xC0#8 ++ 0#8 ++ 0#8 ++ 1#8 : BitVec 32).getLsbD i)) := by
  refine ⟨rxInv_held _ _ (.inr (.inl (by decide))) (by decide), by decide, by decide, by decide, by decide, fun i => ?_⟩
  by_cases hi : i < 32
  · have : ∀ i < 32, (1#32).getLsbD i = (decide (i < 30) && (0xC0#8 ++ 0#8 ++ 0#8 ++ 1#8 : BitVec 32).getLsbD i) := by decide
    exact this i hi
  · rw [BitVec.getLsbD_of_ge _ _ (Nat.not_lt.mp hi), BitVec.getLsbD_of_ge _ _ (Nat.not_lt.mp hi), Bool.and_false]

theorem witness_RxDecodesAnEncoderFrame :
    let s := withHeld [0xFE#8] (.read [0x02#8, 0xFF#8])
    RxInv s ∧ s.port.ctx = s.bind.rxOwner ∧ s.port.source = .read [0x02#8, 0xFF#8] ∧ 2 ≤ s.cfg.rxCap - s.rx.cur ∧
    rxHeld s ++ [0x02#8, 0xFF#8] = 0xFE#8 :: 0x02#8 :: [0xFF#8] :=
  ⟨rxInv_held _ _ (.inr (.inr (by decide))) (by decide), by decide⟩

/-- With a tag after the junk, and with none. -/
theorem witness_RxResyncsToTheFirstTag :
    (let s := withHeld [] (.read [0x55#8, 0xFF#8, 0#8])
     RxInv s ∧ 5 ≤ s.cfg.rxCap ∧ s.port.ctx = s.bind.rxOwner ∧ s.port.source = .read [0x55#8, 0xFF#8, 0#8] ∧
      3 ≤ s.cfg.rxCap - s.rx.cur ∧ rxHeld s ++ [0x55#8, 0xFF#8, 0#8] = [0x55#8] ++ [0xFF#8, 0#8] ∧
      (∀ x ∈ [0x55#8], x ≠ 0xFF#8 ∧ x ≠ 0xFE#8) ∧ [0xFF#8, 0#8].head? = some 0xFF#8) ∧
    (let s := withHeld [] (.read [0#8, 0x11#8])
     RxInv s ∧ 5 ≤ s.cfg.rxCap ∧ s.port.ctx = s.bind.rxOwner ∧ s.port.source = .read [0#8, 0x11#8] ∧
      2 ≤ s.cfg.rxCap - s.rx.cur ∧ rxHeld s ++ [0#8, 0x11#8] = [0#8, 0x11#8] ++ [] ∧
      (∀ x ∈ [0#8, 0x11#8], x ≠ 0xFF#8 ∧ x ≠ 0xFE#8)) :=
  ⟨⟨rxInv_held _ _ (rxAligned_empty _) (by decide), by decide⟩, ⟨rxInv_held _ _ (rxAligned_empty _) (by decide), by decide⟩⟩

/-- A read that fills the buffer. -/
theorem witness_RxCycleRefinesTheStreamReading :
    let s := withHeld [] (.read (List.replicate 8 0x55#8))
    RxInv s ∧ 5 ≤ s.cfg.rxCap ∧ s.port.ctx = s.bind.rxOwner ∧ s.port.source = .read (List.replicate 8 0x55#8) ∧
    List.replicate 8 0x55#8 ≠ [] ∧ 8 ≤ s.cfg.rxCap - s.rx.cur :=
  ⟨rxInv_held _ _ (rxAligned_empty _) (by decide), by decide⟩

/-- A read for each of the three clauses. -/
theorem witness_RxCycleRunsTheWirePattern :
    ∀ bytes ∈ [[0xFF#8, 0#8, 0x80#8, 0#8, 0#8], [0xFE#8, 1#8], [0x12#8]],
      let s := withHeld [] (.read bytes)
      RxInv s ∧ 5 ≤ s.cfg.rxCap ∧ s.port.ctx = s.bind.rxOwner ∧ s.port.source = .read bytes ∧ bytes ≠ [] ∧
      bytes.length ≤ s.cfg.rxCap - s.rx.cur := by
  intro bytes h
  refine ⟨rxInv_held _ _ (rxAligned_empty _) ?_, by show 5 ≤ 8; decide, rfl, rfl, ?_, ?_⟩
  · revert bytes; decide
  · revert bytes; decide
  · revert bytes; decide

theorem witness_WireFramesUpdateOnlyRx :
    ∀ i, (0#32).getLsbD i = (decide (i < State.reset.cfg.numCells) && (0#32).getLsbD i) := fun i => by simp

/-- With a tag after the junk, and with none. -/
theorem witness_UnrecognizedTagScansForATag :
    (let s := withHeld [0x55#8, 0x66#8, 0xFE#8] .wouldBlock
     s.rx.cur ≤ s.rx.buf.length ∧ rxHeld s = 0x55#8 :: [0x66#8] ++ [0xFE#8] ∧
      (∀ x ∈ [0x66#8], x ≠ 0xFF#8 ∧ x ≠ 0xFE#8) ∧ [0xFE#8].head? = some 0xFE#8) ∧
    (let s := withHeld [0x55#8] .wouldBlock
     s.rx.cur ≤ s.rx.buf.length ∧ rxHeld s = 0x55#8 :: [] ++ []) := by decide

theorem witness_RxNeverFillsUp :
    ∃ t, RxInv (withHeld [] (.read [0xFF#8, 1#8, 2#8, 3#8])) ∧ 5 ≤ (withHeld [] (.read [0xFF#8, 1#8, 2#8, 3#8])).cfg.rxCap ∧
      exec .rxCycle (withHeld [] (.read [0xFF#8, 1#8, 2#8, 3#8])) = .next t :=
  ⟨_, rxInv_held _ _ (rxAligned_empty _) (by decide), by decide, rfl⟩

theorem witness_RemoteIsWrittenOnlyByAMatrixFrame :
    ∃ t, exec (.wireMatrixFrame 1#32) State.reset = .next t ∧ t.rx.remote ≠ State.reset.rx.remote :=
  ⟨_, rfl, by decide⟩

/-! #### Q -/

theorem qInv_one (c : Ctx) (v : Option Nat) : QInv (withOneElement c v) :=
  show QInv (withOneElement .a none) by unfold QInv; decide

theorem qInv_full (c : Ctx) (v : Option Nat) : QInv (afterLine11 c v) :=
  show QInv (afterLine11 .a none) by unfold QInv; decide

/-- FULL by a stale view (h_obs = p_seen), and not FULL by the current one (h_obs = HC), drawn and not written. -/
theorem witness_PushStoresAtTheTail :
    (let s := afterLine11 .a (some 0)
     QInv s ∧ 2 ≤ s.cfg.qSlots ∧ s.port.ctx = s.bind.producer ∧ s.port.view = some 0 ∧ s.q.pSeen ≤ 0 ∧ 0 ≤ s.q.hc ∧
      s.q.tc - 0 = s.cfg.qSlots - 1) ∧
    (let s := afterLine11 .a (some 1)
     QInv s ∧ 2 ≤ s.cfg.qSlots ∧ s.port.ctx = s.bind.producer ∧ s.port.view = some 1 ∧ s.q.pSeen ≤ 1 ∧ 1 ≤ s.q.hc ∧
      s.q.tc - 1 ≠ s.cfg.qSlots - 1) ∧
    (let s := afterLine11 .a none
     QInv s ∧ s.port.ctx = s.bind.producer ∧ (s.port.view = none ∧ 1 = s.q.hc) ∧ s.q.pSeen ≤ 1 ∧
      s.q.tc - 1 ≠ s.cfg.qSlots - 1) :=
  ⟨⟨qInv_full _ _, by decide⟩, ⟨qInv_full _ _, by decide⟩, ⟨qInv_full _ _, by decide⟩⟩

/-- A consumer's view: stale (t_obs = c_seen) where it is HC, and current (t_obs = TC), drawn and not written. -/
def ConsumerViews : Prop :=
    (let s := withOneElement .b (some 0)
     QInv s ∧ 2 ≤ s.cfg.qSlots ∧ s.port.ctx = s.bind.consumer ∧ s.port.view = some 0 ∧ s.q.cSeen ≤ 0 ∧ 0 ≤ s.q.tc ∧
      0 = s.q.hc) ∧
    (let s := withOneElement .b (some 1)
     QInv s ∧ 2 ≤ s.cfg.qSlots ∧ s.port.ctx = s.bind.consumer ∧ s.port.view = some 1 ∧ s.q.cSeen ≤ 1 ∧ 1 ≤ s.q.tc ∧
      1 ≠ s.q.hc) ∧
    (let s := withOneElement .b none
     QInv s ∧ 2 ≤ s.cfg.qSlots ∧ s.port.ctx = s.bind.consumer ∧ (s.port.view = none ∧ 1 = s.q.tc) ∧ s.q.cSeen ≤ 1 ∧
      1 ≠ s.q.hc)

theorem consumerViews : ConsumerViews :=
  ⟨⟨qInv_one _ _, by decide⟩, ⟨qInv_one _ _, by decide⟩, ⟨qInv_one _ _, by decide⟩⟩

theorem witness_PopTakesTheHead : ConsumerViews := consumerViews

theorem witness_PeekLeavesTheHead : ConsumerViews := consumerViews

theorem witness_AvailCountsWithoutWriting : ConsumerViews := consumerViews

/-- The producer and the consumer with current views. -/
theorem witness_CurrentViewsAreExact :
    (let s := afterLine11 .a none
     QInv s ∧ 2 ≤ s.cfg.qSlots ∧ s.port.view = none ∧ s.port.ctx = s.bind.producer) ∧
    (let s := withOneElement .b none
     QInv s ∧ 2 ≤ s.cfg.qSlots ∧ s.port.view = none ∧ s.port.ctx = s.bind.consumer) :=
  ⟨⟨qInv_full _ _, by decide⟩, ⟨qInv_one _ _, by decide⟩⟩

/-- A push, a pop and a peek that answer a next state, and a drained queue. -/
theorem witness_QueueHoldsWhatWasPushedAndNotPopped :
    (QInv (withOneElement .a none) ∧ ∃ t, exec (.qPush 9) (withOneElement .a none) = .next t) ∧
    (QInv (withOneElement .b none) ∧ ∃ t, exec .qPop (withOneElement .b none) = .next t) ∧
    (∃ t, exec .qPeek (withOneElement .b none) = .next t) ∧
    (QInv atB ∧ queued atB = [] ∧ ∃ t, exec .qPop atB = .next t) :=
  ⟨⟨qInv_one _ _, _, rfl⟩, ⟨qInv_one _ _, _, rfl⟩, ⟨_, rfl⟩, ⟨witness_Inv.q, rfl, _, rfl⟩⟩

theorem witness_PopAfterPeekReturnsThePeekedValue :
    ∃ t, QInv (withOneElement .b none) ∧ 2 ≤ (withOneElement .b none).cfg.qSlots ∧
      exec .qPeek (withOneElement .b none) = .next t ∧ t.result = some ⟨.ok, .value 7⟩ ∧ t.port.ctx = t.bind.consumer :=
  ⟨_, qInv_one _ _, by decide, rfl, rfl, rfl⟩

theorem witness_QueueChainIsKept :
    ∃ t, QInv (withOneElement .a (some 0)) ∧ 2 ≤ (withOneElement .a (some 0)).cfg.qSlots ∧
      (Instr.qPush (2 ^ 32 - 1)).wellFormed (withOneElement .a (some 0)).cfg = true ∧
      exec (.qPush (2 ^ 32 - 1)) (withOneElement .a (some 0)) = .next t :=
  ⟨_, qInv_one _ _, by decide, by decide, rfl⟩

/-- A run of one command from a queue just constructed, Q_PUSH 88. -/
theorem witness_QueueIsFirstInFirstOut :
    ∃ t, Inv (oneCommand 0x5840) ∧ queued (oneCommand 0x5840) = [] ∧
      CommandRun (oneCommand 0x5840) ([] ++ [(.qPush 88, ⟨.ok, .none⟩)]) t :=
  ⟨_, inv_pending _, rfl, .command (c := { word := 0x5840, port := Port.idle }) (rest := []) .none rfl rfl rfl rfl⟩

theorem witness_CapacityIsOneLessThanTheSlots :
    QInv State.reset ∧ 2 ≤ State.reset.cfg.qSlots ∧ queued State.reset = [] ∧
    [11, 22, 33, 44, 55, 66, 77].length = State.reset.cfg.qSlots - 1 ∧
    (∀ x ∈ [11, 22, 33, 44, 55, 66, 77], x < 2 ^ State.reset.cfg.qWidth) :=
  ⟨witness_Inv.q, by decide, rfl, by decide, by decide⟩

theorem witness_WrapAroundReproducesTheSequence :
    QInv State.reset ∧ 2 ≤ State.reset.cfg.qSlots ∧ queued State.reset = [] ∧
    (∀ x ∈ [0, 2 ^ 32 - 1], x < 2 ^ State.reset.cfg.qWidth) := ⟨witness_Inv.q, by decide, rfl, by decide⟩

end Sys2Proof.Tests
end

section
/-! PROOFS. The whole-machine rules of 00_scope.md. For each unit, one lemma says everything an instruction of the unit can
do when it answers a next state, with its status; the rule on units (R2) and the rule on failures (R11) follow from these. -/

namespace Sys2Proof.Machine

/-! ### What the instructions of one unit do -/

@[simp] theorem State.sends_nil (s : State) : s.sends [] = s := by simp [State.sends]

/-- A command on a button fails without a write, or succeeds and writes DB alone. -/
theorem onButton_writes_db {s t : State} {b : Byte} {f : DbRecord → DbRecord × Output} (h : onButton b s f = .next t) :
    t = s.returns ⟨.range, .none⟩ ∨ ∃ db o, t = (s.withDb db).returns ⟨.ok, o⟩ := by
  obtain ⟨-, ht⟩ | ⟨-, ht⟩ := onButton_next h
  · exact .inl ht
  · exact .inr ⟨_, _, ht⟩

/-- So does every DB instruction. -/
theorem exec_db_next {i : Instr} {s t : State} (hu : unitOf i = .db) (h : exec i s = .next t) :
    t = s.returns ⟨.range, .none⟩ ∨ ∃ db o, t = (s.withDb db).returns ⟨.ok, o⟩ := by
  cases i with
  | dbSubmit b st now => exact onButton_writes_db (whenIssuedBy_next.mp h).2
  | dbRelease b now => exact onButton_writes_db (whenIssuedBy_next.mp h).2
  | _ => simp [unitOf] at hu

/-- A serialize command only returns a record, or succeeds and writes TX alone. -/
theorem queueFrame_writes_tx {s t : State} {frame : List Byte} (h : queueFrame frame s = .next t) :
    (∃ r, t = s.returns r) ∨ ∃ tx bytes o, t = ((s.withTx tx).sends bytes).returns ⟨.ok, o⟩ := by
  obtain ⟨-, ht⟩ | ⟨-, ht⟩ := queueFrame_next h
  · exact .inl ⟨_, ht⟩
  · exact .inr ⟨s.tx.append frame, [], .none, by simpa using ht⟩

/-- A TX instruction only returns a record, or succeeds and writes TX and what SINK has taken. -/
theorem exec_tx_next {i : Instr} {s t : State} (hu : unitOf i = .tx) (h : exec i s = .next t) :
    (∃ r, t = s.returns r) ∨ ∃ tx bytes o, t = ((s.withTx tx).sends bytes).returns ⟨.ok, o⟩ := by
  cases i with
  | txMatrix snap => exact queueFrame_writes_tx (whenIssuedBy_next.mp h).2
  | txEncoder cw => exact queueFrame_writes_tx (whenIssuedBy_next.mp h).2
  | txPump =>
    obtain ⟨-, ht⟩ | ⟨n, -, -, -, ht⟩ | ⟨-, -, ht⟩ | ⟨-, -, ht⟩ := pump_next (whenIssuedBy_next.mp h).2
    · exact .inl ⟨_, ht⟩
    · exact .inr ⟨_, _, _, ht⟩
    · exact .inl ⟨_, ht⟩
    · exact .inl ⟨_, ht⟩
  | _ => simp [unitOf] at hu

/-- An RX instruction always succeeds (43_link_rx.md R191), and writes RX alone. -/
theorem exec_rx_next {i : Instr} {s t : State} (hu : unitOf i = .rx) (h : exec i s = .next t) :
    ∃ rx o, t = (s.withRx rx).returns ⟨.ok, o⟩ := by
  cases i with
  | rxCycle =>
    obtain ht | ⟨bytes, -, -, -, ht⟩ := cycle_next (whenIssuedBy_next.mp h).2
    · exact ⟨s.rx, _, ht⟩
    · exact ⟨_, _, ht⟩
  | wireMatrixFrame f => exact ⟨_, _, rxDone_next.mp h⟩
  | wireEncoderFrame d => exact ⟨_, _, rxDone_next.mp h⟩
  | wireUnrecognizedTag tag => exact ⟨_, _, rxDone_next.mp h⟩
  | wireDirCw => exact ⟨_, _, rxDone_next.mp h⟩
  | wireDirCcw => exact ⟨_, _, rxDone_next.mp h⟩
  | wireDirMalformed d => exact ⟨_, _, rxDone_next.mp h⟩
  | _ => simp [unitOf] at hu

/-- A Q instruction succeeds and writes Q alone, or reports FULL or EMPTY and moves its port's view alone
(44_spsc_queue.md R221 to R223). -/
theorem exec_q_next {i : Instr} {s t : State} (hu : unitOf i = .q) (h : exec i s = .next t) :
    (∃ q o, t = (s.withQ q).returns ⟨.ok, o⟩) ∨
    (∃ v k, i = .qPush v ∧ t = (s.withQ (s.q.sawHead k)).returns ⟨.full, .none⟩) ∨
    ((i = .qPop ∨ i = .qPeek) ∧ ∃ k, t = (s.withQ (s.q.sawTail k)).returns ⟨.empty, .none⟩) := by
  cases i with
  | qPush v =>
    obtain ⟨-, ht⟩ | ⟨-, ht⟩ := push_next (whenIssuedBy_next.mp h).2
    · exact .inr (.inl ⟨v, _, rfl, ht⟩)
    · exact .inl ⟨_, _, ht⟩
  | qPop =>
    obtain ⟨-, ht⟩ | ⟨-, ht⟩ := pop_next (whenIssuedBy_next.mp h).2
    · exact .inr (.inr ⟨.inl rfl, _, ht⟩)
    · exact .inl ⟨_, _, ht⟩
  | qPeek =>
    obtain ⟨-, ht⟩ | ⟨-, ht⟩ := peek_next (whenIssuedBy_next.mp h).2
    · exact .inr (.inr ⟨.inr rfl, _, ht⟩)
    · exact .inl ⟨_, _, ht⟩
  | qAvail =>
    obtain ⟨n, ht⟩ := avail_next (whenIssuedBy_next.mp h).2
    exact .inl ⟨s.q, _, ht⟩
  | _ => simp [unitOf] at hu

/-- A CODEC instruction only returns a record. -/
theorem exec_codec_next {i : Instr} {s t : State} (hu : unitOf i = .codec) (h : exec i s = .next t) :
    ∃ r, t = s.returns r := by
  obtain ⟨r, -, -, he⟩ := exec_codec hu
  rw [he s] at h
  exact ⟨r, (complete_next s t r).mp h⟩

/-! ### The rules on every instruction -/

/-- Settles O14: by the unit of the instruction, from what the instructions of that unit write. -/
theorem instructionsTouchOnlyTheirUnit : Obligations.InstructionsTouchOnlyTheirUnit := by
  intro i s t h
  cases hu : unitOf i with
  | codec =>
    obtain ⟨r, rfl⟩ := exec_codec_next hu h
    simp
  | db => obtain rfl | ⟨db, o, rfl⟩ := exec_db_next hu h <;> simp
  | tx => obtain ⟨r, rfl⟩ | ⟨tx, bytes, o, rfl⟩ := exec_tx_next hu h <;> simp
  | rx =>
    obtain ⟨rx, o, rfl⟩ := exec_rx_next hu h
    simp
  | q => obtain ⟨q, o, rfl⟩ | ⟨v, k, -, rfl⟩ | ⟨-, k, rfl⟩ := exec_q_next hu h <;> simp

/-- Settles O16: by the unit of the instruction. Only a Q command writes state and fails, and then it writes its port's
view alone; every other write comes with status OK. -/
theorem failureWritesNoState : Obligations.FailureWritesNoState := by
  intro i s t h
  cases hu : unitOf i with
  | codec =>
    obtain ⟨r, rfl⟩ := exec_codec_next hu h
    exact ⟨r, rfl, fun _ => .inl rfl⟩
  | db =>
    obtain rfl | ⟨db, o, rfl⟩ := exec_db_next hu h
    · exact ⟨_, rfl, fun _ => .inl rfl⟩
    · exact ⟨_, rfl, fun hne => absurd rfl hne⟩
  | tx =>
    obtain ⟨r, rfl⟩ | ⟨tx, bytes, o, rfl⟩ := exec_tx_next hu h
    · exact ⟨r, rfl, fun _ => .inl rfl⟩
    · exact ⟨_, rfl, fun hne => absurd rfl hne⟩
  | rx =>
    obtain ⟨rx, o, rfl⟩ := exec_rx_next hu h
    exact ⟨_, rfl, fun hne => absurd rfl hne⟩
  | q =>
    obtain ⟨q, o, rfl⟩ | ⟨v, k, hi, rfl⟩ | ⟨hi, k, rfl⟩ := exec_q_next hu h
    · exact ⟨_, rfl, fun hne => absurd rfl hne⟩
    · exact ⟨_, rfl, fun _ => .inr (.inl ⟨v, k, hi, rfl⟩)⟩
    · exact ⟨_, rfl, fun _ => .inr (.inr ⟨hi, k, rfl⟩)⟩

/-! ### The configuration -/

/-- The configuration is checked before anything else (60_exceptions.md R257). -/
theorem step_badConfiguration {s : State} (h : ¬configOk s.cfg = true) : step s = .refused .badConfiguration := by
  simp [step, fetch, h]

/-- Settles O8: each broken constraint contradicts the configuration check. -/
theorem brokenConfigurationIsRefused : Obligations.BrokenConfigurationIsRefused := by
  intro s hbroken
  apply step_badConfiguration
  rw [configOk_iff, Config.numCells]
  omega

end Sys2Proof.Machine
end

section
/-! PROOFS. The invariants of 10_state.md. For each unit: what of the state its invariant reads, that its reset value meets
it, and that its instructions keep it; then the whole machine, by the kind of the step. -/

namespace Sys2Proof.Machine

/-! ### DB (10_state.md R26, R27) -/

/-- A quarantine has an anchor (R27), and the timestamp has the given width (R26). -/
def DbRecord.Ok (tsBits : Nat) (d : DbRecord) : Prop := (d.qValid = true → d.laValid = true) ∧ d.ts < 2 ^ tsBits

theorem DbRecord.idle_ok (tsBits : Nat) : DbRecord.idle.Ok tsBits := ⟨by simp [DbRecord.idle], Nat.two_pow_pos _⟩

theorem submitTo_ok {bits now : Nat} {d : DbRecord} (hd : d.Ok bits) (hn : now < 2 ^ bits) (w : Nat) (st : Bool) :
    (submitTo w d st now).1.Ok bits := by
  obtain e | ⟨-, e⟩ | ⟨hla, e⟩ := submitTo_cases w d st now <;> rw [e]
  · exact ⟨fun _ => rfl, hn⟩
  · exact hd
  · exact ⟨fun _ => hla, hn⟩

theorem releaseFrom_ok {bits now : Nat} {d : DbRecord} (hd : d.Ok bits) (hn : now < 2 ^ bits) (w : Nat) :
    (releaseFrom w d now).1.Ok bits := by
  obtain e | ⟨-, e⟩ := releaseFrom_cases w d now <;> rw [e]
  · exact hd
  · exact ⟨nofun, hn⟩

/-- The invariant of DB reads the configuration and DB alone. -/
theorem dbInv_congr {s t : State} (hc : t.cfg = s.cfg) (hd : t.db = s.db) : DbInv t ↔ DbInv s := by
  simp only [DbInv, hc, hd]

theorem dbInv_constructed {s : State} (h : s.db = dbConstructed s.cfg) : DbInv s := by
  rw [DbInv, h]
  refine ⟨List.length_replicate, fun d hd => ?_⟩
  rw [List.eq_of_mem_replicate hd]
  exact DbRecord.idle_ok _

theorem onButton_keeps_dbInv {s t : State} {b : Byte} {f : DbRecord → DbRecord × Output} (hs : DbInv s)
    (hf : ∀ d : DbRecord, d.Ok s.cfg.tsBits → (f d).1.Ok s.cfg.tsBits) (h : onButton b s f = .next t) : DbInv t := by
  obtain ⟨hlen, hok⟩ := hs
  obtain ⟨-, rfl⟩ | ⟨hb, rfl⟩ := onButton_next h
  · exact ⟨hlen, hok⟩
  · refine ⟨by simpa [dbWrite] using hlen, fun d hd => ?_⟩
    obtain hd | rfl := List.mem_or_eq_of_mem_set hd
    · exact hok d hd
    · exact hf _ (hok _ (dbRecord_mem (hlen ▸ hb)))

theorem exec_db_keeps_dbInv {i : Instr} {s t : State} (hu : unitOf i = .db) (hi : i.wellFormed s.cfg = true) (hs : DbInv s)
    (h : exec i s = .next t) : DbInv t := by
  cases i with
  | dbSubmit b st now =>
    have hn : now < 2 ^ s.cfg.tsBits := of_decide_eq_true hi
    exact onButton_keeps_dbInv hs (fun d hd => submitTo_ok hd hn _ st) (whenIssuedBy_next.mp h).2
  | dbRelease b now =>
    have hn : now < 2 ^ s.cfg.tsBits := of_decide_eq_true hi
    exact onButton_keeps_dbInv hs (fun d hd => releaseFrom_ok hd hn _) (whenIssuedBy_next.mp h).2
  | _ => simp [unitOf] at hu

/-! ### TX (10_state.md R29, R30) -/

/-- The invariant of TX reads the configuration and TX alone. -/
theorem txInv_congr {s t : State} (hc : t.cfg = s.cfg) (ht : t.tx = s.tx) : TxInv t ↔ TxInv s := by
  simp only [TxInv, hc, ht]

theorem txInv_constructed {s : State} (h : s.tx = TxUnit.constructed s.cfg) : TxInv s := by
  rw [TxInv, h]
  exact ⟨List.length_replicate, Nat.zero_le _⟩

theorem txPending_constructed {s : State} (h : s.tx = TxUnit.constructed s.cfg) : txPending s = [] := by
  rw [txPending, h]
  rfl

theorem queueFrame_keeps_txInv {s t : State} {frame : List Byte} (hs : TxInv s) (h : queueFrame frame s = .next t) :
    TxInv t := by
  obtain ⟨hlen, hcur⟩ := hs
  obtain ⟨-, rfl⟩ | ⟨hroom, rfl⟩ := queueFrame_next h
  · exact ⟨hlen, hcur⟩
  · exact ⟨by simpa using hlen, by simp; omega⟩

theorem queueFrame_keeps_framed {s t : State} {frame : List Byte} (hs : TxInv s) (hp : Framed s.cfg (txPending s))
    (hf : IsFrame s.cfg frame) (h : queueFrame frame s = .next t) : Framed t.cfg (txPending t) := by
  obtain ⟨hlen, hcur⟩ := hs
  obtain ⟨-, rfl⟩ | ⟨hroom, rfl⟩ := queueFrame_next h
  · exact hp
  · rw [txPending_returns, txPending_withTx, TxUnit.append_take (by omega)]
    exact framed_append _ _ _ hp hf

theorem pump_keeps_txInv {s t : State} (hs : TxInv s) (h : pump s = .next t) : TxInv t := by
  obtain ⟨hlen, hcur⟩ := hs
  obtain ⟨-, rfl⟩ | ⟨n, -, -, -, rfl⟩ | ⟨-, -, rfl⟩ | ⟨-, -, rfl⟩ := pump_next h
  · exact ⟨hlen, hcur⟩
  · exact ⟨by simpa using hlen, by simp; omega⟩
  · exact ⟨hlen, hcur⟩
  · exact ⟨hlen, hcur⟩

theorem pump_keeps_framed {s t : State} (hs : TxInv s) (hp : Framed s.cfg (txPending s)) (h : pump s = .next t) :
    Framed t.cfg (txPending t) := by
  obtain ⟨hlen, hcur⟩ := hs
  obtain ⟨-, rfl⟩ | ⟨n, -, -, hn, rfl⟩ | ⟨-, -, rfl⟩ | ⟨-, -, rfl⟩ := pump_next h
  · exact hp
  · rw [txPending_returns, txPending_sends, txPending_withTx, TxUnit.sent_take hn (by omega)]
    exact framed_drop _ _ hp n
  · exact hp
  · exact hp

theorem exec_tx_keeps_txInv {i : Instr} {s t : State} (hu : unitOf i = .tx) (hs : TxInv s) (h : exec i s = .next t) :
    TxInv t := by
  cases i with
  | txMatrix snap => exact queueFrame_keeps_txInv hs (whenIssuedBy_next.mp h).2
  | txEncoder cw => exact queueFrame_keeps_txInv hs (whenIssuedBy_next.mp h).2
  | txPump => exact pump_keeps_txInv hs (whenIssuedBy_next.mp h).2
  | _ => simp [unitOf] at hu

theorem exec_tx_keeps_framed {i : Instr} {s t : State} (hu : unitOf i = .tx) (hs : TxInv s)
    (hp : Framed s.cfg (txPending s)) (h : exec i s = .next t) : Framed t.cfg (txPending t) := by
  cases i with
  | txMatrix snap => exact queueFrame_keeps_framed hs hp (.inl ⟨snap, rfl⟩) (whenIssuedBy_next.mp h).2
  | txEncoder cw => exact queueFrame_keeps_framed hs hp (.inr ⟨cw, rfl⟩) (whenIssuedBy_next.mp h).2
  | txPump => exact pump_keeps_framed hs hp (whenIssuedBy_next.mp h).2
  | _ => simp [unitOf] at hu

/-! ### RX (10_state.md R31 to R34) -/

/-- Fewer than five bytes from a matrix tag on are aligned. -/
theorem rxAligned_of_matrixTag {rx : RxUnit} (ht : rx.buf.getD 0 0#8 = tagMatrix) (hc : rx.cur < 5) : RxAligned rx := by
  by_cases h0 : rx.cur = 0
  · exact .inl h0
  · exact .inr (.inl ⟨ht, by omega, by omega⟩)

/-- Fewer than two bytes from an encoder tag on are aligned. -/
theorem rxAligned_of_encoderTag {rx : RxUnit} (ht : rx.buf.getD 0 0#8 = tagEncoder) (hc : rx.cur < 2) : RxAligned rx := by
  by_cases h0 : rx.cur = 0
  · exact .inl h0
  · exact .inr (.inr ⟨ht, by omega⟩)

/-- Everything an interpretation of the held bytes can do (43_link_rx.md R193 to R198): wait for the rest of a frame, take
a whole frame, or resync, which drops all bytes or those before a tag. -/
inductive RxReads (cfg : Config) : RxUnit → RxUnit × Output → Prop where
  | waits {rx : RxUnit} (h : RxAligned rx) : RxReads cfg rx (rx, .nothing)
  | matrix (rx : RxUnit) (f : BitVec 32) : RxReads cfg rx (matrixFrame cfg f rx)
  | encoder (rx : RxUnit) (cw : Bool) : RxReads cfg rx (validDirection cw rx)
  | malformed (rx : RxUnit) : RxReads cfg rx (malformedDirection cfg rx)
  | dropsAll (rx : RxUnit) :
      RxReads cfg rx ({ rx with cur := 0, cntResync := wrapAdd cfg.cntBits rx.cntResync 1 }, .nothing)
  | dropsJunk {rx : RxUnit} {r : RxUnit × Output} (k : Nat)
      (h : RxReads cfg { rx.shifted k with cntResync := wrapAdd cfg.cntBits rx.cntResync 1 } r) : RxReads cfg rx r

theorem encoderFrame_reads (cfg : Config) (d : Byte) (rx : RxUnit) : RxReads cfg rx (encoderFrame cfg d rx) := by
  obtain ⟨-, e⟩ | ⟨-, e⟩ | ⟨-, -, e⟩ := encoderFrame_cases cfg d rx <;> rw [e]
  · exact .encoder rx true
  · exact .encoder rx false
  · exact .malformed rx

/-- RESYNC reads what its retry reads of fewer bytes. -/
theorem resync_reads {cfg : Config} {retry : RxUnit → RxUnit × Output} {rx : RxUnit}
    (hr : ∀ rx', rx'.cur < rx.cur → RxReads cfg rx' (retry rx')) : RxReads cfg rx (resync cfg retry rx) := by
  unfold resync
  split
  · rename_i k hk
    obtain ⟨hk1, hk2, -, -⟩ := findTag_some hk
    exact .dropsJunk k (hr _ (by simp only [RxUnit.shifted_cur]; omega))
  · exact .dropsAll rx

/-- Fuel for as many retries as bytes are held is never used up. -/
theorem interpret_reads {cfg : Config} {fuel : Nat} {rx : RxUnit} (hf : rx.cur ≤ fuel) :
    RxReads cfg rx (interpret cfg fuel rx) := by
  induction fuel generalizing rx with
  | zero => exact .waits (.inl (by omega))
  | succ fuel ih =>
    unfold interpret
    split_ifs with hm h5 he h2
    · exact .waits (rxAligned_of_matrixTag hm h5)
    · exact .matrix rx _
    · exact .waits (rxAligned_of_encoderTag he h2)
    · exact encoderFrame_reads cfg _ rx
    · exact resync_reads fun rx' h => ih (by omega)

/-- An RX instruction that answers a next state read nothing, or interpreted the held bytes, after a read or not. -/
theorem exec_rx_reads {i : Instr} {s t : State} (hu : unitOf i = .rx) (h : exec i s = .next t) :
    t = s.returns ⟨.ok, .nothing⟩ ∨
    ∃ rx r, (rx = s.rx ∨ ∃ bytes, rx = s.rx.received s.cfg bytes) ∧ RxReads s.cfg rx r ∧
      t = (s.withRx r.1).returns ⟨.ok, r.2⟩ := by
  cases i with
  | rxCycle =>
    obtain ht | ⟨bytes, -, -, -, ht⟩ := cycle_next (whenIssuedBy_next.mp h).2
    · exact .inl ht
    · exact .inr ⟨_, _, .inr ⟨bytes, rfl⟩, interpret_reads le_rfl, ht⟩
  | wireMatrixFrame f => exact .inr ⟨_, _, .inl rfl, .matrix s.rx f, rxDone_next.mp h⟩
  | wireEncoderFrame d => exact .inr ⟨_, _, .inl rfl, encoderFrame_reads _ d _, rxDone_next.mp h⟩
  | wireUnrecognizedTag tag =>
    exact .inr ⟨_, _, .inl rfl, resync_reads fun rx' h => interpret_reads h.le, rxDone_next.mp h⟩
  | wireDirCw => exact .inr ⟨_, _, .inl rfl, .encoder s.rx true, rxDone_next.mp h⟩
  | wireDirCcw => exact .inr ⟨_, _, .inl rfl, .encoder s.rx false, rxDone_next.mp h⟩
  | wireDirMalformed d => exact .inr ⟨_, _, .inl rfl, .malformed s.rx, rxDone_next.mp h⟩
  | _ => simp [unitOf] at hu

/-- What a reading leaves is the start of one frame (10_state.md R34). -/
theorem RxReads.aligned {cfg : Config} {rx : RxUnit} {r : RxUnit × Output} (h : RxReads cfg rx r) : RxAligned r.1 := by
  induction h with
  | waits h => exact h
  | dropsJunk k _ ih => exact ih
  | _ => exact .inl rfl

/-- A reading leaves `remote`, or reports the matrix it stores there (10_state.md R32). -/
theorem RxReads.remote {cfg : Config} {rx : RxUnit} {r : RxUnit × Output} (h : RxReads cfg rx r) :
    r.1.remote = rx.remote ∨ ∃ changes, r.2 = .matrix r.1.remote changes := by
  induction h with
  | matrix rx f => exact .inr ⟨_, rfl⟩
  | dropsJunk k _ ih => exact ih
  | _ => exact .inl rfl

/-- The widths of RX: the bytes of RXB, the bits of `remote` and those of the four counters (10_state.md R31 to R33). -/
structure RxUnit.Fits (cfg : Config) (rx : RxUnit) : Prop where
  buf : rx.buf.length = cfg.rxCap
  remote : ∀ i, cfg.numCells ≤ i → rx.remote.getLsbD i = false
  cntBytes : rx.cntBytes < 2 ^ cfg.cntBits
  cntReads : rx.cntReads < 2 ^ cfg.cntBits
  cntMalformed : rx.cntMalformed < 2 ^ cfg.cntBits
  cntResync : rx.cntResync < 2 ^ cfg.cntBits

theorem rxInv_iff (s : State) : RxInv s ↔ s.rx.Fits s.cfg ∧ RxAligned s.rx :=
  ⟨fun ⟨h1, h2, h3, h4, h5, h6, h7⟩ => ⟨⟨h1, h3, h4, h5, h6, h7⟩, h2⟩,
   fun ⟨⟨h1, h3, h4, h5, h6, h7⟩, h2⟩ => ⟨h1, h2, h3, h4, h5, h6, h7⟩⟩

theorem RxUnit.received_fits {cfg : Config} {rx : RxUnit} (h : rx.Fits cfg) (bytes : List Byte) :
    (rx.received cfg bytes).Fits cfg :=
  { h with
    buf := by simpa using h.buf
    cntBytes := wrapAdd_lt _ _ _
    cntReads := wrapAdd_lt _ _ _ }

/-- A reading keeps the widths. -/
theorem RxReads.fits {cfg : Config} {rx : RxUnit} {r : RxUnit × Output} (h : RxReads cfg rx r) (hf : rx.Fits cfg) :
    r.1.Fits cfg := by
  induction h with
  | waits _ => exact hf
  | matrix rx f => exact { hf with remote := fun i hi => by simp [matrixFrame, cellsOf_getLsbD, hi] }
  | encoder rx cw => exact { hf with }
  | malformed rx => exact { hf with cntMalformed := wrapAdd_lt _ _ _ }
  | dropsAll rx => exact { hf with cntResync := wrapAdd_lt _ _ _ }
  | dropsJunk k _ ih => exact ih { hf with buf := by simpa using hf.buf, cntResync := wrapAdd_lt _ _ _ }

/-- The invariant of RX reads the configuration and RX alone. -/
theorem rxInv_congr {s t : State} (hc : t.cfg = s.cfg) (hr : t.rx = s.rx) : RxInv t ↔ RxInv s := by
  simp only [rxInv_iff, hc, hr]

theorem rxInv_constructed {s : State} (h : s.rx = RxUnit.constructed s.cfg) : RxInv s := by
  rw [rxInv_iff, h]
  exact ⟨⟨List.length_replicate, fun i _ => by simp [RxUnit.constructed], Nat.two_pow_pos _, Nat.two_pow_pos _,
    Nat.two_pow_pos _, Nat.two_pow_pos _⟩, .inl rfl⟩

theorem exec_rx_keeps_rxInv {i : Instr} {s t : State} (hu : unitOf i = .rx) (hs : RxInv s) (h : exec i s = .next t) :
    RxInv t := by
  obtain rfl | ⟨rx, r, hrx, hr, rfl⟩ := exec_rx_reads hu h
  · exact hs
  · rw [rxInv_iff] at hs ⊢
    have hfits : rx.Fits s.cfg := by
      obtain rfl | ⟨bytes, rfl⟩ := hrx
      · exact hs.1
      · exact RxUnit.received_fits hs.1 bytes
    exact ⟨hr.fits hfits, hr.aligned⟩

/-! ### Q (10_state.md R35 to R38) -/

/-- The invariant of Q reads the configuration and Q alone. -/
theorem qInv_congr {s t : State} (hc : t.cfg = s.cfg) (hq : t.q = s.q) : QInv t ↔ QInv s := by
  simp only [QInv, hc, hq]

theorem qInv_constructed {s : State} (h : s.q = QUnit.constructed s.cfg) : QInv s := by
  rw [QInv, h]
  refine ⟨List.length_replicate, fun v hv => ?_, (Nat.zero_mod _).symm, (Nat.zero_mod _).symm, le_rfl, le_rfl, le_rfl,
    Nat.zero_le _⟩
  rw [List.eq_of_mem_replicate hv]
  exact Nat.two_pow_pos _

/-- The producer's view may move on to any HC it can observe (20_memory.md R57). -/
theorem qInv_sawHead {s : State} {k : Nat} (hs : QInv s) (h1 : s.q.pSeen ≤ k) (h2 : k ≤ s.q.hc) :
    QInv (s.withQ (s.q.sawHead k)) := by
  obtain ⟨hlen, hval, hhead, htail, -, i2, i3, i4⟩ := hs
  exact ⟨hlen, hval, hhead, htail, h2, i2, i3, by simp [QUnit.sawHead]; omega⟩

/-- The consumer's view may move on to any TC it can observe (20_memory.md R57). -/
theorem qInv_sawTail {s : State} {k : Nat} (hs : QInv s) (h1 : s.q.cSeen ≤ k) (h2 : k ≤ s.q.tc) :
    QInv (s.withQ (s.q.sawTail k)) := by
  obtain ⟨hlen, hval, hhead, htail, i1, i2, -, i4⟩ := hs
  exact ⟨hlen, hval, hhead, htail, i1, i2.trans h1, h2, i4⟩

/-- A push into what the producer sees as room. -/
theorem qInv_pushed {s : State} {v : Nat} (hs : QInv s) (hv : v < 2 ^ s.cfg.qWidth)
    (hroom : s.q.tc + 1 ≤ s.q.pSeen + (s.cfg.qSlots - 1)) : QInv (s.withQ (s.q.pushed s.cfg v)) := by
  obtain ⟨hlen, hval, hhead, htail, i1, i2, i3, -⟩ := hs
  refine ⟨by simpa [QUnit.pushed] using hlen, fun x hx => ?_, hhead, ?_, i1, i2, i3.trans (Nat.le_succ _), hroom⟩
  · obtain hx | rfl := List.mem_or_eq_of_mem_set hx
    · exact hval x hx
    · exact hv
  · simp [QUnit.pushed, htail, slotAfter_mod]

/-- A pop of what the consumer sees as an element. -/
theorem qInv_popped {s : State} (hs : QInv s) (hne : s.q.hc < s.q.cSeen) : QInv (s.withQ (s.q.popped s.cfg)) := by
  obtain ⟨hlen, hval, hhead, htail, i1, -, i3, i4⟩ := hs
  exact ⟨hlen, hval, by simp [QUnit.popped, hhead, slotAfter_mod], htail, i1.trans (Nat.le_succ _), hne, i3, i4⟩

/-- No view and no ghost counter goes back. -/
def QUnit.GoesOnTo (q q' : QUnit) : Prop := q.pSeen ≤ q'.pSeen ∧ q.cSeen ≤ q'.cSeen ∧ q.hc ≤ q'.hc ∧ q.tc ≤ q'.tc

theorem QUnit.goesOnTo_refl (q : QUnit) : q.GoesOnTo q := ⟨le_rfl, le_rfl, le_rfl, le_rfl⟩

theorem push_keeps_chain {s t : State} {v : Nat} (hs : QInv s) (hN : 2 ≤ s.cfg.qSlots) (hv : v < 2 ^ s.cfg.qWidth)
    (h : push v s = .next t) : QInv t ∧ s.q.GoesOnTo t.q := by
  obtain ⟨h1, h2⟩ := headObserved_bounds hs
  have hsaw := qInv_sawHead hs h1 h2
  obtain ⟨-, rfl⟩ | ⟨hfull, rfl⟩ := push_next h
  · exact ⟨hsaw, h1, le_rfl, le_rfl, le_rfl⟩
  · have hne : s.q.tc - headObserved s ≠ s.cfg.qSlots - 1 := by
      rw [Ne, ← qLooksFull_iff hs hN h1 h2, hfull]
      exact Bool.false_ne_true
    have ⟨_, _, _, _, _, _, _, hcap⟩ := hsaw
    have hseen : s.q.tc ≤ headObserved s + (s.cfg.qSlots - 1) := hcap
    have hroom : s.q.tc + 1 ≤ headObserved s + (s.cfg.qSlots - 1) := by omega
    exact ⟨qInv_pushed hsaw hv hroom, h1, le_rfl, le_rfl, Nat.le_succ _⟩

theorem pop_keeps_chain {s t : State} (hs : QInv s) (hN : 2 ≤ s.cfg.qSlots) (h : pop s = .next t) :
    QInv t ∧ s.q.GoesOnTo t.q := by
  obtain ⟨h1, h2⟩ := tailObserved_bounds hs
  have hsaw := qInv_sawTail hs h1 h2
  obtain ⟨-, rfl⟩ | ⟨hempty, rfl⟩ := pop_next h
  · exact ⟨hsaw, le_rfl, h1, le_rfl, le_rfl⟩
  · have hne : tailObserved s ≠ s.q.hc := by
      rw [Ne, ← qLooksEmpty_iff hs hN h1 h2, hempty]
      exact Bool.false_ne_true
    have ⟨_, _, _, _, _, hseen, _, _⟩ := hsaw
    exact ⟨qInv_popped hsaw (lt_of_le_of_ne hseen hne.symm), le_rfl, h1, Nat.le_succ _, le_rfl⟩

theorem peek_keeps_chain {s t : State} (hs : QInv s) (h : peek s = .next t) : QInv t ∧ s.q.GoesOnTo t.q := by
  obtain ⟨h1, h2⟩ := tailObserved_bounds hs
  have hsaw := qInv_sawTail hs h1 h2
  obtain ⟨-, rfl⟩ | ⟨-, rfl⟩ := peek_next h <;> exact ⟨hsaw, le_rfl, h1, le_rfl, le_rfl⟩

theorem exec_q_keeps_chain {i : Instr} {s t : State} (hu : unitOf i = .q) (hi : i.wellFormed s.cfg = true) (hs : QInv s)
    (hN : 2 ≤ s.cfg.qSlots) (h : exec i s = .next t) : QInv t ∧ s.q.GoesOnTo t.q := by
  cases i with
  | qPush v => exact push_keeps_chain hs hN (of_decide_eq_true hi) (whenIssuedBy_next.mp h).2
  | qPop => exact pop_keeps_chain hs hN (whenIssuedBy_next.mp h).2
  | qPeek => exact peek_keeps_chain hs (whenIssuedBy_next.mp h).2
  | qAvail =>
    obtain ⟨n, rfl⟩ := avail_next (whenIssuedBy_next.mp h).2
    exact ⟨hs, s.q.goesOnTo_refl⟩
  | _ => simp [unitOf] at hu

/-! ### The whole machine -/

/-- A block constructed as a whole meets the invariant (10_state.md R43). -/
theorem inv_constructed {s : State} (hc : configOk s.cfg = true) (hdb : s.db = dbConstructed s.cfg)
    (htx : s.tx = TxUnit.constructed s.cfg) (hrx : s.rx = RxUnit.constructed s.cfg) (hq : s.q = QUnit.constructed s.cfg) :
    Inv s :=
  ⟨hc, dbInv_constructed hdb, txInv_constructed htx, rxInv_constructed hrx, qInv_constructed hq⟩

theorem construct_keeps_inv {u : UnitId} {ports : PortUse} {s t : State} (hs : Inv s) (h : construct u ports s = .next t) :
    Inv t := by
  obtain ⟨hc, hdb, htx, hrx, hq⟩ := hs
  obtain ⟨-, rfl⟩ | ⟨-, rfl⟩ | ⟨-, rfl⟩ | ⟨-, rfl⟩ | ⟨-, -, rfl⟩ := construct_next h
  · exact ⟨hc, hdb, htx, hrx, hq⟩
  · exact ⟨hc, dbInv_constructed rfl, htx, hrx, hq⟩
  · exact ⟨hc, hdb, txInv_constructed rfl, hrx, hq⟩
  · exact ⟨hc, hdb, htx, rxInv_constructed rfl, hq⟩
  · exact ⟨hc, hdb, htx, hrx, qInv_constructed rfl⟩

/-- An instruction keeps the invariant of each unit: of its own by that unit's lemma, of the others by the frame
(00_scope.md R2). -/
theorem exec_keeps_inv {i : Instr} {s t : State} (hi : i.wellFormed s.cfg = true) (hs : Inv s) (h : exec i s = .next t) :
    Inv t := by
  obtain ⟨hcfg, -, -, -, fdb, ftx, frx, fq⟩ := instructionsTouchOnlyTheirUnit i s t h
  obtain ⟨-, -, -, -, -, hN, -⟩ := (configOk_iff _).mp hs.cfgOk
  refine ⟨hcfg ▸ hs.cfgOk, ?_, ?_, ?_, ?_⟩
  · by_cases hu : unitOf i = .db
    · exact exec_db_keeps_dbInv hu hi hs.db h
    · exact (dbInv_congr hcfg (fdb hu)).mpr hs.db
  · by_cases hu : unitOf i = .tx
    · exact exec_tx_keeps_txInv hu hs.tx h
    · exact (txInv_congr hcfg (ftx hu).1).mpr hs.tx
  · by_cases hu : unitOf i = .rx
    · exact exec_rx_keeps_rxInv hu hs.rx h
    · exact (rxInv_congr hcfg (frx hu)).mpr hs.rx
  · by_cases hu : unitOf i = .q
    · exact (exec_q_keeps_chain hu hi hs.q hN h).1
    · exact (qInv_congr hcfg (fq hu)).mpr hs.q

/-- The inputs of a step are in no unit's invariant. -/
theorem inv_accepts {s : State} (hs : Inv s) (c : Command) (rest : List Stimulus) : Inv (s.accepts c rest) :=
  ⟨hs.cfgOk, hs.db, hs.tx, hs.rx, hs.q⟩

theorem inv_continues {s : State} (hs : Inv s) (rest : List Stimulus) : Inv (s.continues rest) :=
  ⟨hs.cfgOk, hs.db, hs.tx, hs.rx, hs.q⟩

/-- Settles O12: by the kind of the step. -/
theorem everyStepKeepsTheInvariant : Obligations.EveryStepKeepsTheInvariant := by
  intro s t hs h
  obtain ⟨hc, ⟨-, rfl⟩ | ⟨c, rest, i, -, hd, he⟩ | ⟨u, ports, rest, -, hk⟩ | ⟨rest, -, rfl⟩⟩ := step_next h
  · exact hs
  · exact exec_keeps_inv (s := s.accepts c rest) (decode_command hd).1 (inv_accepts hs c rest) he
  · exact construct_keeps_inv (inv_continues hs rest) hk
  · exact inv_constructed hc rfl rfl rfl rfl

/-- An instruction keeps the pending bytes framed: those of TX by what they send and queue, the others by the frame. -/
theorem exec_keeps_framed {i : Instr} {s t : State} (hs : TxInv s) (hp : Framed s.cfg (txPending s))
    (h : exec i s = .next t) : Framed t.cfg (txPending t) := by
  by_cases hu : unitOf i = .tx
  · exact exec_tx_keeps_framed hu hs hp h
  · obtain ⟨hcfg, -, -, -, -, ftx, -, -⟩ := instructionsTouchOnlyTheirUnit i s t h
    rw [txPending, (ftx hu).1, hcfg]
    exact hp

theorem framed_constructed {s : State} (h : s.tx = TxUnit.constructed s.cfg) : Framed s.cfg (txPending s) := by
  rw [txPending_constructed h]
  exact framed_nil s.cfg

theorem construct_keeps_framed {u : UnitId} {ports : PortUse} {s t : State} (hp : Framed s.cfg (txPending s))
    (h : construct u ports s = .next t) : Framed t.cfg (txPending t) := by
  obtain ⟨-, rfl⟩ | ⟨-, rfl⟩ | ⟨-, rfl⟩ | ⟨-, rfl⟩ | ⟨-, -, rfl⟩ := construct_next h
  case inr.inr.inl => exact framed_constructed rfl
  all_goals exact hp

/-- Settles O36: by the kind of the step; the cursor is in the invariant that every step keeps. -/
theorem pendingBytesStayFramed : Obligations.PendingBytesStayFramed := by
  refine ⟨fun cfg bind => framed_constructed (s := State.construct cfg bind) rfl,
    fun s t hs hp h => ⟨(everyStepKeepsTheInvariant s t hs h).tx.2, ?_⟩⟩
  obtain ⟨-, ⟨-, rfl⟩ | ⟨c, rest, i, -, -, he⟩ | ⟨u, ports, rest, -, hk⟩ | ⟨rest, -, rfl⟩⟩ := step_next h
  · exact hp
  · exact exec_keeps_framed (inv_accepts hs c rest).tx hp he
  · exact construct_keeps_framed (s := s.continues rest) hp hk
  · exact framed_constructed rfl

/-- Settles O13: by the kind of the step. -/
theorem noStepChangesConfigurationOrBinding : Obligations.NoStepChangesConfigurationOrBinding := by
  intro s t h
  obtain ⟨-, ⟨-, rfl⟩ | ⟨c, rest, i, -, -, he⟩ | ⟨u, ports, rest, -, hk⟩ | ⟨rest, -, rfl⟩⟩ := step_next h
  · exact ⟨rfl, rfl⟩
  · obtain ⟨hcfg, hbind, -⟩ := instructionsTouchOnlyTheirUnit i _ t he
    exact ⟨hcfg, hbind⟩
  · obtain ⟨-, rfl⟩ | ⟨-, rfl⟩ | ⟨-, rfl⟩ | ⟨-, rfl⟩ | ⟨-, -, rfl⟩ := construct_next hk <;> exact ⟨rfl, rfl⟩
  · exact ⟨rfl, rfl⟩

/-! ### The rules on RX and Q -/

/-- At most four bytes are held between RX commands (10_state.md R34). -/
theorem RxAligned.cur_le {rx : RxUnit} (h : RxAligned rx) : rx.cur ≤ 4 := by
  obtain h | ⟨-, -, h⟩ | ⟨-, h⟩ := h <;> omega

/-- Settles O47: RX_CYCLE keeps the alignment, and the configuration has room for more than four bytes. -/
theorem rxNeverFillsUp : Obligations.RxNeverFillsUp := by
  intro s t hs hcap h
  have ht : RxAligned t.rx := ((rxInv_iff t).mp (exec_rx_keeps_rxInv rfl hs h)).2
  have hcur := ht.cur_le
  obtain ⟨hcfg, -⟩ := instructionsTouchOnlyTheirUnit .rxCycle s t h
  rw [hcfg]
  exact ⟨ht, by omega, by omega⟩

/-- Settles O48: another unit's instruction leaves RX, and a reading leaves `remote` or reports it. -/
theorem remoteIsWrittenOnlyByAMatrixFrame : Obligations.RemoteIsWrittenOnlyByAMatrixFrame := by
  intro i s t h hne
  by_cases hu : unitOf i = .rx
  · refine ⟨hu, ?_⟩
    obtain rfl | ⟨rx, r, hrx, hr, rfl⟩ := exec_rx_reads hu h
    · exact absurd rfl hne
    · have hold : rx.remote = s.rx.remote := by obtain rfl | ⟨bytes, rfl⟩ := hrx <;> rfl
      obtain hsame | ⟨changes, hout⟩ := hr.remote
      · exact absurd (hsame.trans hold) hne
      · exact ⟨changes, by simp [hout]⟩
  · obtain ⟨-, -, -, -, -, -, frx, -⟩ := instructionsTouchOnlyTheirUnit i s t h
    exact absurd (congrArg RxUnit.remote (frx hu)) hne

/-- Settles O56: a Q instruction keeps the chain, and another unit's leaves Q. -/
theorem queueChainIsKept : Obligations.QueueChainIsKept := by
  intro i s t hs hN hi h
  by_cases hu : unitOf i = .q
  · exact exec_q_keeps_chain hu hi hs hN h
  · obtain ⟨hcfg, -, -, -, -, -, -, fq⟩ := instructionsTouchOnlyTheirUnit i s t h
    rw [qInv_congr hcfg (fq hu), fq hu]
    exact ⟨hs, s.q.goesOnTo_refl⟩

/-! ### The step and construction -/

/-- Settles O6: the fetch finds the command and its port. -/
theorem stepRunsTheDecodedCommand : Obligations.StepRunsTheDecodedCommand :=
  fun _ _ _ _ hc hp hd => step_command hc hp hd

/-- Settles O9: each value stands in the unit's construction. -/
theorem resetLeavesTheSpecsValues : Obligations.ResetLeavesTheSpecsValues := by
  intro cfg bind
  have hidle : ∀ d ∈ dbConstructed cfg, d.laValid = false ∧ d.qValid = false := by
    intro d hd
    rw [List.eq_of_mem_replicate hd]
    exact ⟨rfl, rfl⟩
  exact ⟨List.length_replicate, hidle, rfl, List.length_replicate, rfl, List.length_replicate, rfl, rfl, rfl, rfl, rfl,
    rfl, rfl, List.length_replicate, rfl, rfl, rfl, rfl⟩

/-- Settles O11: construction gives every unit its reset value, and the standard configuration has a meaning. -/
theorem constructionMeetsTheInvariant : Obligations.ConstructionMeetsTheInvariant :=
  have hinv (cfg : Config) (bind : Binding) (hc : configOk cfg = true) : Inv (State.construct cfg bind) :=
    inv_constructed hc rfl rfl rfl rfl
  ⟨hinv, hinv _ _ (by decide)⟩

end Sys2Proof.Machine
end

section
/-! PROOFS. Memory and order (20_memory.md): only a unit's owner uses it (R62), and the queue is first in, first out
(R60). A successful push appends to the queued elements and a successful pop takes the first, so each command, and then each
run of commands, keeps an equation between the values that went in and those that came out. -/

namespace Sys2Proof.Machine

/-! ### The owner of a unit -/

/-- The two ports of Q are bound to different contexts (10_state.md R36). -/
theorem Binding.producer_ne_consumer (b : Binding) : b.producer ≠ b.consumer := by
  rw [Binding.consumer]
  cases b.producer <;> decide

/-- Settles O17: an owned command begins with the check of its context, and a CODEC instruction returns one record in every
state. -/
theorem wrongContextIsRefused : Obligations.WrongContextIsRefused := by
  refine fun s => ⟨fun h b st now => ⟨whenIssuedBy_other h _ _, whenIssuedBy_other h _ _⟩,
    fun h => ⟨fun snap => whenIssuedBy_other h _ _, fun cw => whenIssuedBy_other h _ _, whenIssuedBy_other h _ _⟩,
    fun h => whenIssuedBy_other h _ _, fun h v => whenIssuedBy_other h _ _, fun h => ?_, fun i p hu => ?_⟩
  · have hc : s.port.ctx ≠ s.bind.consumer := h ▸ s.bind.producer_ne_consumer
    exact ⟨whenIssuedBy_other hc _ _, whenIssuedBy_other hc _ _, whenIssuedBy_other hc _ _⟩
  · obtain ⟨r, -, -, he⟩ := exec_codec hu
    exact ⟨r, he s, he (s.withPort p)⟩

/-! ### One command and the elements of Q -/

/-- What Q held and the logged command put in is what the command took out and Q still holds. -/
def Conserves (s : State) (entry : Instr × Result) (t : State) : Prop :=
  queued s ++ [entry].filterMap pushedBy = [entry].filterMap poppedBy ++ queued t

/-- A command that moves no element and leaves SLOT and the counters conserves. -/
theorem conserves_of_queued_eq {s t : State} {entry : Instr × Result} (h1 : pushedBy entry = none)
    (h2 : poppedBy entry = none) (h : queued t = queued s) : Conserves s entry t := by
  simp [Conserves, h1, h2, h]

/-- A queue that does not look full has room, for the view may be old but not ahead (20_memory.md R57). -/
theorem room_of_not_looksFull {s : State} (hs : QInv s) (hN : 2 ≤ s.cfg.qSlots)
    (h : qLooksFull s.cfg s.q (headObserved s) = false) : s.q.tc - s.q.hc < s.cfg.qSlots - 1 := by
  obtain ⟨h1, h2⟩ := headObserved_bounds hs
  have hne : s.q.tc - headObserved s ≠ s.cfg.qSlots - 1 := by simp [← qLooksFull_iff hs hN h1 h2, h]
  obtain ⟨-, -, -, -, -, -, -, hcap⟩ := hs
  omega

/-- A queue that does not look empty holds an element, for the view may be old but not ahead (20_memory.md R57). -/
theorem element_of_not_looksEmpty {s : State} (hs : QInv s) (hN : 2 ≤ s.cfg.qSlots)
    (h : qLooksEmpty s.cfg s.q (tailObserved s) = false) : s.q.hc < s.q.tc := by
  obtain ⟨h1, h2⟩ := tailObserved_bounds hs
  have hne : tailObserved s ≠ s.q.hc := by simp [← qLooksEmpty_iff hs hN h1 h2, h]
  obtain ⟨-, -, -, -, -, hseen, -, -⟩ := hs
  omega

theorem push_conserves {s t : State} {v : Nat} {r : Result} (hs : QInv s) (hN : 2 ≤ s.cfg.qSlots)
    (h : push v s = .next t) (hr : t.result = some r) : Conserves s (.qPush v, r) t := by
  obtain ⟨-, rfl⟩ | ⟨hfull, rfl⟩ := push_next h <;> obtain rfl := Option.some.inj hr
  · exact conserves_of_queued_eq rfl rfl rfl
  · exact Eq.symm (queued_push hs hN (room_of_not_looksFull hs hN hfull) rfl rfl)

theorem pop_conserves {s t : State} {r : Result} (hs : QInv s) (hN : 2 ≤ s.cfg.qSlots) (h : pop s = .next t)
    (hr : t.result = some r) : Conserves s (.qPop, r) t := by
  obtain ⟨-, rfl⟩ | ⟨hempty, rfl⟩ := pop_next h <;> obtain rfl := Option.some.inj hr
  · exact conserves_of_queued_eq rfl rfl rfl
  · exact Eq.trans (List.append_nil _) (queued_pop hs (element_of_not_looksEmpty hs hN hempty) rfl rfl)

theorem peek_conserves {s t : State} (h : peek s = .next t) (r : Result) : Conserves s (.qPeek, r) t := by
  obtain ⟨-, rfl⟩ | ⟨-, rfl⟩ := peek_next h <;> exact conserves_of_queued_eq rfl rfl rfl

/-- Another unit's command pushes nothing and pops nothing. -/
theorem moves_nothing_of_unitOf_ne {i : Instr} (hu : unitOf i ≠ .q) (r : Result) :
    pushedBy (i, r) = none ∧ poppedBy (i, r) = none := by
  cases i with
  | qPush v => exact absurd rfl hu
  | qPop => exact absurd rfl hu
  | _ => exact ⟨rfl, rfl⟩

theorem exec_q_conserves {i : Instr} {s t : State} {r : Result} (hu : unitOf i = .q) (hs : QInv s)
    (hN : 2 ≤ s.cfg.qSlots) (h : exec i s = .next t) (hr : t.result = some r) : Conserves s (i, r) t := by
  cases i with
  | qPush v => exact push_conserves hs hN (whenIssuedBy_next.mp h).2 hr
  | qPop => exact pop_conserves hs hN (whenIssuedBy_next.mp h).2 hr
  | qPeek => exact peek_conserves (whenIssuedBy_next.mp h).2 r
  | qAvail =>
    obtain ⟨n, rfl⟩ := avail_next (whenIssuedBy_next.mp h).2
    exact conserves_of_queued_eq rfl rfl rfl
  | _ => simp [unitOf] at hu

/-- Every instruction conserves: those of Q by what they do, the others by the frame (00_scope.md R2). -/
theorem exec_conserves {i : Instr} {s t : State} {r : Result} (hs : QInv s) (hN : 2 ≤ s.cfg.qSlots)
    (h : exec i s = .next t) (hr : t.result = some r) : Conserves s (i, r) t := by
  by_cases hu : unitOf i = .q
  · exact exec_q_conserves hu hs hN h hr
  · obtain ⟨hcfg, -, -, -, -, -, -, fq⟩ := instructionsTouchOnlyTheirUnit i s t h
    obtain ⟨hpush, hpop⟩ := moves_nothing_of_unitOf_ne hu r
    exact conserves_of_queued_eq hpush hpop (by simp only [queued, hcfg, fq hu])

/-! ### Runs of commands -/

/-- A run of commands keeps the invariant. -/
theorem CommandRun.inv {start s : State} {log : List (Instr × Result)} (hrun : CommandRun start log s) (hs : Inv start) :
    Inv s := by
  induction hrun with
  | none => exact hs
  | command _ _ _ hstep _ ih => exact everyStepKeepsTheInvariant _ _ ih hstep

/-- The step of a run does what its command does; the inputs it takes are no part of Q. -/
theorem step_conserves {s t : State} {c : Command} {rest : List Stimulus} {i : Instr} {r : Result} (hs : Inv s)
    (hp : s.pending = .command c :: rest) (hd : decode s.cfg c.word = .ok i) (h : step s = .next t)
    (hr : t.result = some r) : Conserves s (i, r) t := by
  obtain ⟨-, -, -, -, -, hN, -⟩ := (configOk_iff _).mp hs.cfgOk
  rw [step_command hs.cfgOk hp hd] at h
  exact exec_conserves (s := s.accepts c rest) (inv_accepts hs c rest).q hN h hr

/-- Over a run, what Q held and what was pushed is what was popped and what Q still holds. -/
theorem CommandRun.conserves {start s : State} {log : List (Instr × Result)} (hrun : CommandRun start log s)
    (hs : Inv start) : queued start ++ log.filterMap pushedBy = log.filterMap poppedBy ++ queued s := by
  induction hrun with
  | none => simp
  | @command log s t c rest i r hrun hp hd hstep hr ih =>
    have hone : queued s ++ [(i, r)].filterMap pushedBy = [(i, r)].filterMap poppedBy ++ queued t :=
      step_conserves (hrun.inv hs) hp hd hstep hr
    calc queued start ++ (log ++ [(i, r)]).filterMap pushedBy
        = (queued start ++ log.filterMap pushedBy) ++ [(i, r)].filterMap pushedBy := by
          rw [List.filterMap_append, List.append_assoc]
      _ = log.filterMap poppedBy ++ (queued s ++ [(i, r)].filterMap pushedBy) := by rw [ih, List.append_assoc]
      _ = (log ++ [(i, r)]).filterMap poppedBy ++ queued t := by rw [hone, List.filterMap_append, List.append_assoc]

/-- Settles O57: by induction on the run; from an empty queue the equation makes what was popped a prefix. -/
theorem queueIsFirstInFirstOut : Obligations.QueueIsFirstInFirstOut := by
  intro start s log hs hrun
  have hall := hrun.conserves hs
  refine ⟨hall, fun hempty => ⟨queued s, ?_⟩⟩
  rw [← hall, hempty, List.nil_append]

end Sys2Proof.Machine
end

section
/-! PROOFS. The encoding (30_encoding.md R81 to R94). The decoder of each format and the encoder are inverse to each other,
field by field, and a command that meets a data pattern does what the pattern says. -/

namespace Sys2Proof

/-! ### Fields read back -/

theorem fieldBits_eq {w lo n : Nat} {x : BitVec n} (h : w / 2 ^ lo % 2 ^ n = x.toNat) : fieldBits w lo n = x :=
  BitVec.eq_of_toNat_eq (by rw [fieldBits_toNat, h])

theorem fieldBit_eq {w i : Nat} {b : Bool} (h : w / 2 ^ i % 2 = b.toNat) : fieldBit w i = b :=
  toNat_inj (by rw [fieldBit_toNat, h])

/-- The last field of a word, above the bits `low` of the fields before it. -/
theorem fieldNat_top {low x lo n : Nat} (hlow : low < 2 ^ lo) (hx : x < 2 ^ n) : fieldNat (low + x * 2 ^ lo) lo n = x := by
  rw [fieldNat_eq, Nat.add_mul_div_right _ _ (Nat.two_pow_pos lo), Nat.div_eq_of_lt hlow, Nat.zero_add, Nat.mod_eq_of_lt hx]

/-! ### The command word -/

theorem Opsel.ofCode_code (o : Opsel) : Opsel.ofCode o.code = some o := by cases o <;> rfl

/-- A code is reserved when it is none of the thirteen (30_encoding.md R85). -/
theorem Opsel.ofCode_eq_none {c : Byte} (h : c ∉ Opsel.all.map Opsel.code) : Opsel.ofCode c = none := by
  rw [Opsel.ofCode, List.find?_eq_none]
  intro o ho hc
  exact h (List.mem_map.mpr ⟨o, ho, by simpa using hc⟩)

/-- OPSEL alone tells which fields a word has (30_encoding.md R81). -/
theorem decode_of_code {cfg : Config} {w : Nat} {i : Instr} (o : Opsel) (hc : w % 2 ^ 8 = o.code.toNat)
    (hi : decodeOperands cfg w o = i) : decode cfg w = .ok i := by
  have hf : fieldBits w 0 8 = o.code := fieldBits_eq (by simpa using hc)
  simp [decode, hf, Opsel.ofCode_code, hi]

theorem decode_ok {cfg : Config} {w : Nat} {i : Instr} (h : decode cfg w = .ok i) :
    ∃ o, w % 2 ^ 8 = o.code.toNat ∧ i = decodeOperands cfg w o := by
  unfold decode at h
  split at h
  · rename_i o ho
    refine ⟨o, ?_, by simpa using h.symm⟩
    simp [Opsel.code_of_ofCode ho, fieldBits_toNat]
  · simp at h

/-- A command's word decodes to the command: OPSEL selects its row, and each field reads its operand (30_encoding.md R83). -/
theorem decode_encode_command {cfg : Config} {i : Instr} (hf : i.format = .opsel) (hw : i.wellFormed cfg = true) :
    decode cfg i.encode = .ok i := by
  cases i with simp only [Instr.encode]
  | codecEnckey idx pr =>
    have hidx := idx.isLt
    have hpr := pr.toNat_lt
    refine decode_of_code .codecEnckey (show _ = 0x00 by omega) ?_
    exact congrArg₂ Instr.codecEnckey (fieldBits_eq (by omega)) (fieldBit_eq (by omega))
  | codecEncenc cw =>
    have hcw := cw.toNat_lt
    exact decode_of_code .codecEncenc (show _ = 0x01 by omega) (congrArg Instr.codecEncenc (fieldBit_eq (by omega)))
  | codecDecode x =>
    have hx := x.isLt
    exact decode_of_code .codecDecode (show _ = 0x02 by omega) (congrArg Instr.codecDecode (fieldBits_eq (by omega)))
  | dbSubmit b st now =>
    have hb := b.isLt
    have hst := st.toNat_lt
    simp only [Instr.wellFormed, decide_eq_true_iff] at hw
    refine decode_of_code .dbSubmit (show _ = 0x10 by omega) ?_
    rw [decodeOperands, fieldNat_top (by omega) hw, fieldBits_eq (x := b) (by omega), fieldBit_eq (b := st) (by omega)]
  | dbRelease b now =>
    have hb := b.isLt
    simp only [Instr.wellFormed, decide_eq_true_iff] at hw
    refine decode_of_code .dbRelease (show _ = 0x11 by omega) ?_
    exact congrArg₂ Instr.dbRelease (fieldBits_eq (by omega)) (fieldNat_top (by omega) hw)
  | txMatrix snap =>
    have hsnap := snap.isLt
    exact decode_of_code .txMatrix (show _ = 0x20 by omega) (congrArg Instr.txMatrix (fieldBits_eq (by omega)))
  | txEncoder cw =>
    have hcw := cw.toNat_lt
    exact decode_of_code .txEncoder (show _ = 0x21 by omega) (congrArg Instr.txEncoder (fieldBit_eq (by omega)))
  | txPump => exact decode_of_code .txPump rfl rfl
  | rxCycle => exact decode_of_code .rxCycle rfl rfl
  | qPush v =>
    simp only [Instr.wellFormed, decide_eq_true_iff] at hw
    exact decode_of_code .qPush (show _ = 0x40 by omega) (congrArg Instr.qPush (fieldNat_top (by omega) hw))
  | qPop => exact decode_of_code .qPop rfl rfl
  | qPeek => exact decode_of_code .qPeek rfl rfl
  | qAvail => exact decode_of_code .qAvail rfl rfl
  | _ => simp [Instr.format] at hf

/-- The low bits of a word are its low field and the field above it. -/
theorem mod_two_pow_add (w a b : Nat) : w % 2 ^ (a + b) = w % 2 ^ a + w / 2 ^ a % 2 ^ b * 2 ^ a := by
  rw [pow_add, Nat.mod_mul, Nat.mul_comm (2 ^ a)]

/-- The operands a word's fields hold, encoded again, are the word up to the command's length (30_encoding.md R83). -/
theorem encode_decodeOperands {cfg : Config} {w : Nat} (o : Opsel) (hc : w % 2 ^ 8 = o.code.toNat) :
    (decodeOperands cfg w o).encode = w % 2 ^ (decodeOperands cfg w o).wordBits cfg := by
  cases o with simp only [decodeOperands, Instr.encode, Instr.wordBits, fieldBits_toNat, fieldBit_toNat, fieldNat_eq]
  | codecEnckey => replace hc : w % 2 ^ 8 = 0x00 := hc; omega
  | codecEncenc => replace hc : w % 2 ^ 8 = 0x01 := hc; omega
  | codecDecode => replace hc : w % 2 ^ 8 = 0x02 := hc; omega
  | dbSubmit => replace hc : w % 2 ^ 8 = 0x10 := hc; rw [mod_two_pow_add]; omega
  | dbRelease => replace hc : w % 2 ^ 8 = 0x11 := hc; rw [mod_two_pow_add]; omega
  | txMatrix => replace hc : w % 2 ^ 8 = 0x20 := hc; omega
  | txEncoder => replace hc : w % 2 ^ 8 = 0x21 := hc; omega
  | qPush => rw [mod_two_pow_add, show w % 2 ^ 8 = 0x40 from hc]
  | txPump | rxCycle | qPop | qPeek | qAvail => exact hc.symm

/-! ### The codec byte -/

theorem getLsbD_toNat (x : Byte) (i : Nat) : (x.getLsbD i).toNat = x.toNat / 2 ^ i % 2 := fieldBit_toNat x.toNat i

theorem extractLsb'_toNat (x : Byte) (lo n : Nat) : (x.extractLsb' lo n).toNat = x.toNat / 2 ^ lo % 2 ^ n :=
  fieldBits_toNat x.toNat lo n

theorem getLsbD_eq {x : Byte} {i : Nat} {b : Bool} (h : x.toNat / 2 ^ i % 2 = b.toNat) : x.getLsbD i = b := fieldBit_eq h

theorem extractLsb'_eq {x : Byte} {lo n : Nat} {y : BitVec n} (h : x.toNat / 2 ^ lo % 2 ^ n = y.toNat) :
    x.extractLsb' lo n = y := fieldBits_eq h

theorem decodeCodecByte_encoderCw {x : Byte} (h6 : x.getLsbD 6 = true) (h7 : x.getLsbD 7 = true) :
    decodeCodecByte x = .codecEncoderCw (x.extractLsb' 0 6) := by
  rw [decodeCodecByte, if_pos h6, if_pos h7]

theorem decodeCodecByte_encoderCcw {x : Byte} (h6 : x.getLsbD 6 = true) (h7 : x.getLsbD 7 = false) :
    decodeCodecByte x = .codecEncoderCcw (x.extractLsb' 0 6) := by
  rw [decodeCodecByte, if_pos h6, if_neg (ne_true_of_eq_false h7)]

theorem decodeCodecByte_illegal {x : Byte} (h6 : x.getLsbD 6 = false) (h : x.extractLsb' 0 5 = 31#5) :
    decodeCodecByte x = .codecIllegal (x.getLsbD 7) (x.getLsbD 5) := by
  rw [decodeCodecByte, if_neg (ne_true_of_eq_false h6), if_pos h]

theorem decodeCodecByte_key {x : Byte} (h6 : x.getLsbD 6 = false) (h : x.extractLsb' 0 5 ≠ 31#5) :
    decodeCodecByte x = .codecKey (x.getLsbD 7) (x.getLsbD 5) (x.extractLsb' 0 5) := by
  rw [decodeCodecByte, if_neg (ne_true_of_eq_false h6), if_neg h]

/-- Every byte is of one of the four classes of 30_encoding.md R87, tried in this order. -/
theorem codecByte_cases (x : Byte) :
    (x.getLsbD 6 = true ∧ x.getLsbD 7 = true) ∨ (x.getLsbD 6 = true ∧ x.getLsbD 7 = false) ∨
    (x.getLsbD 6 = false ∧ x.extractLsb' 0 5 = 31#5) ∨ (x.getLsbD 6 = false ∧ x.extractLsb' 0 5 ≠ 31#5) := by
  cases x.getLsbD 6 with
  | true => cases x.getLsbD 7 <;> simp
  | false => simpa using em _

/-- The byte of a codec pattern is read as that pattern (30_encoding.md R87). -/
theorem decodeCodecByte_encode {cfg : Config} {i : Instr} {x : Byte} (hf : i.format = .codecByte)
    (hw : i.wellFormed cfg = true) (hx : x.toNat = i.encode % 2 ^ 8) : decodeCodecByte x = i := by
  cases i with simp only [Instr.encode] at hx
  | codecEncoderCw low =>
    have hlow := low.isLt
    rw [decodeCodecByte_encoderCw (getLsbD_eq (show _ = 1 by omega)) (getLsbD_eq (show _ = 1 by omega)),
      extractLsb'_eq (y := low) (by omega)]
  | codecEncoderCcw low =>
    have hlow := low.isLt
    rw [decodeCodecByte_encoderCcw (getLsbD_eq (show _ = 1 by omega)) (getLsbD_eq (show _ = 0 by omega)),
      extractLsb'_eq (y := low) (by omega)]
  | codecIllegal bit7 bit5 =>
    have hbit7 := bit7.toNat_lt
    have hbit5 := bit5.toNat_lt
    rw [decodeCodecByte_illegal (getLsbD_eq (show _ = 0 by omega)) (extractLsb'_eq (show _ = 31 by omega)),
      getLsbD_eq (b := bit7) (by omega), getLsbD_eq (b := bit5) (by omega)]
  | codecKey bit7 pr idx =>
    have hbit7 := bit7.toNat_lt
    have hpr := pr.toNat_lt
    have hlt := idx.isLt
    have hidx : x.extractLsb' 0 5 = idx := extractLsb'_eq (by omega)
    have hne : x.extractLsb' 0 5 ≠ 31#5 := by simpa [Instr.wellFormed, hidx] using hw
    rw [decodeCodecByte_key (getLsbD_eq (show _ = 0 by omega)) hne, hidx,
      getLsbD_eq (b := bit7) (by omega), getLsbD_eq (b := pr) (by omega)]
  | _ => simp [Instr.format] at hf

/-- The pattern of a byte is well formed, and its word is the byte (30_encoding.md R87). -/
theorem encode_decodeCodecByte (cfg : Config) (x : Byte) :
    (decodeCodecByte x).wellFormed cfg = true ∧ (decodeCodecByte x).format = .codecByte ∧
      (decodeCodecByte x).encode = x.toNat := by
  have hx := x.isLt
  obtain ⟨h6, h7⟩ | ⟨h6, h7⟩ | ⟨h6, h31⟩ | ⟨h6, h31⟩ := codecByte_cases x
  · rw [decodeCodecByte_encoderCw h6 h7]
    refine ⟨rfl, rfl, ?_⟩
    have h6n : x.toNat / 2 ^ 6 % 2 = 1 := by rw [← getLsbD_toNat, h6]; rfl
    have h7n : x.toNat / 2 ^ 7 % 2 = 1 := by rw [← getLsbD_toNat, h7]; rfl
    rw [Instr.encode, extractLsb'_toNat]
    omega
  · rw [decodeCodecByte_encoderCcw h6 h7]
    refine ⟨rfl, rfl, ?_⟩
    have h6n : x.toNat / 2 ^ 6 % 2 = 1 := by rw [← getLsbD_toNat, h6]; rfl
    have h7n : x.toNat / 2 ^ 7 % 2 = 0 := by rw [← getLsbD_toNat, h7]; rfl
    rw [Instr.encode, extractLsb'_toNat]
    omega
  · rw [decodeCodecByte_illegal h6 h31]
    refine ⟨rfl, rfl, ?_⟩
    have hidx : x.toNat / 2 ^ 0 % 2 ^ 5 = 31 := by rw [← extractLsb'_toNat, h31]; rfl
    have h6n : x.toNat / 2 ^ 6 % 2 = 0 := by rw [← getLsbD_toNat, h6]; rfl
    rw [Instr.encode, getLsbD_toNat, getLsbD_toNat]
    omega
  · rw [decodeCodecByte_key h6 h31]
    refine ⟨by simpa [Instr.wellFormed] using h31, rfl, ?_⟩
    have h6n : x.toNat / 2 ^ 6 % 2 = 0 := by rw [← getLsbD_toNat, h6]; rfl
    rw [Instr.encode, getLsbD_toNat, getLsbD_toNat, extractLsb'_toNat]
    omega

/-! ### The wire frames -/

theorem fieldBits_of_toNat (x : Byte) : fieldBits x.toNat 0 8 = x := fieldBits_eq (by have := x.isLt; omega)

/-- The classes of a direction byte are exclusive and cover every byte (30_encoding.md R91, R93). -/
theorem decodeWireDir_cases (d : Byte) :
    (d = 0x00#8 ∧ decodeWireDir d = .wireDirCw) ∨ (d = 0x01#8 ∧ decodeWireDir d = .wireDirCcw) ∨
    (d ≠ 0x00#8 ∧ d ≠ 0x01#8 ∧ decodeWireDir d = .wireDirMalformed d) := by
  unfold decodeWireDir
  split
  · exact .inl ⟨‹_›, rfl⟩
  · split
    · exact .inr (.inl ⟨‹_›, rfl⟩)
    · exact .inr (.inr ⟨‹_›, ‹_›, rfl⟩)

theorem decodeWireDir_encode {cfg : Config} {i : Instr} (hf : i.format = .wireEncPayload) (hw : i.wellFormed cfg = true) :
    decodeWireDir (fieldBits i.encode 0 8) = i := by
  cases i with
  | wireDirCw => rfl
  | wireDirCcw => rfl
  | wireDirMalformed d =>
    rw [Instr.encode, fieldBits_of_toNat]
    simp only [Instr.wellFormed, Bool.and_eq_true, bne_iff_ne] at hw
    obtain ⟨h0, h1⟩ := hw
    rw [decodeWireDir, if_neg h0, if_neg h1]
  | _ => simp [Instr.format] at hf

theorem encode_decodeWireDir (cfg : Config) (d : Byte) :
    (decodeWireDir d).wellFormed cfg = true ∧ (decodeWireDir d).format = .wireEncPayload ∧
      (decodeWireDir d).encode = d.toNat := by
  obtain ⟨rfl, h⟩ | ⟨rfl, h⟩ | ⟨h0, h1, h⟩ := decodeWireDir_cases d
  · exact ⟨rfl, rfl, rfl⟩
  · exact ⟨rfl, rfl, rfl⟩
  · rw [h]
    exact ⟨by simp [Instr.wellFormed, h0, h1], rfl, rfl⟩

theorem decodeWireFrame_matrix {w : Nat} (h : fieldBits w 0 8 = tagMatrix) :
    decodeWireFrame w = .wireMatrixFrame (fieldBits w 8 32) := by
  rw [decodeWireFrame, if_pos h]

theorem decodeWireFrame_encoder {w : Nat} (h : fieldBits w 0 8 = tagEncoder) :
    decodeWireFrame w = .wireEncoderFrame (fieldBits w 8 8) := by
  rw [decodeWireFrame, if_neg (by rw [h]; decide), if_pos h]

theorem decodeWireFrame_unrecognized {w : Nat} (hm : fieldBits w 0 8 ≠ tagMatrix) (he : fieldBits w 0 8 ≠ tagEncoder) :
    decodeWireFrame w = .wireUnrecognizedTag (fieldBits w 0 8) := by
  rw [decodeWireFrame, if_neg hm, if_neg he]

theorem decodeWireFrame_encode {cfg : Config} {i : Instr} (hf : i.format = .wireTag) (hw : i.wellFormed cfg = true) :
    decodeWireFrame i.encode = i := by
  cases i with simp only [Instr.encode]
  | wireMatrixFrame f =>
    have hlt := f.isLt
    rw [decodeWireFrame_matrix (fieldBits_eq (show _ = 0xFF by omega)), fieldBits_eq (x := f) (by omega)]
  | wireEncoderFrame d =>
    have hlt := d.isLt
    rw [decodeWireFrame_encoder (fieldBits_eq (show _ = 0xFE by omega)), fieldBits_eq (x := d) (by omega)]
  | wireUnrecognizedTag tag =>
    simp only [Instr.wellFormed, Bool.and_eq_true, bne_iff_ne] at hw
    obtain ⟨hm, he⟩ := hw
    rw [decodeWireFrame_unrecognized (by rwa [fieldBits_of_toNat]) (by rwa [fieldBits_of_toNat]), fieldBits_of_toNat]
  | _ => simp [Instr.format] at hf

theorem encode_decodeWireFrame (cfg : Config) (w : Nat) :
    (decodeWireFrame w).wellFormed cfg = true ∧ (decodeWireFrame w).format = .wireTag ∧
      (decodeWireFrame w).encode = w % 2 ^ (decodeWireFrame w).wordBits cfg := by
  have htag := fieldBits_toNat w 0 8
  by_cases hm : fieldBits w 0 8 = tagMatrix
  · rw [decodeWireFrame_matrix hm]
    refine ⟨rfl, rfl, ?_⟩
    replace htag : 0xFF = w / 2 ^ 0 % 2 ^ 8 := by rw [← htag, hm]; rfl
    rw [Instr.encode, Instr.wordBits, fieldBits_toNat]
    omega
  · by_cases he : fieldBits w 0 8 = tagEncoder
    · rw [decodeWireFrame_encoder he]
      refine ⟨rfl, rfl, ?_⟩
      replace htag : 0xFE = w / 2 ^ 0 % 2 ^ 8 := by rw [← htag, he]; rfl
      rw [Instr.encode, Instr.wordBits, fieldBits_toNat]
      omega
    · rw [decodeWireFrame_unrecognized hm he]
      refine ⟨by simp [Instr.wellFormed, hm, he], rfl, ?_⟩
      rw [Instr.encode, Instr.wordBits, htag]
      omega

/-! ### The statements on the encoding -/

/-- Settles O1: by the format of the instruction; in each the fields of the word read the operands back. -/
theorem decodeOfEncodeIsTheInstruction : Obligations.DecodeOfEncodeIsTheInstruction := by
  intro cfg i hw
  cases hf : i.format with
  | opsel => exact decode_encode_command hf hw
  | codecByte => exact congrArg Except.ok (decodeCodecByte_encode hf hw (by simp [fieldBits_toNat]))
  | wireTag => exact congrArg Except.ok (decodeWireFrame_encode hf hw)
  | wireEncPayload => exact congrArg Except.ok (decodeWireDir_encode hf hw)

/-- Settles O2: by the OPSEL the word has. -/
theorem encodeOfDecodeIsTheWord : Obligations.EncodeOfDecodeIsTheWord := by
  intro cfg w i h
  obtain ⟨o, hc, rfl⟩ := decode_ok h
  obtain ⟨hw, hf⟩ := decodeOperands_wellFormed cfg w o
  exact ⟨hw, hf, encode_decodeOperands o hc⟩

/-- Settles O3: by the class of the byte, of the direction byte and of the tag. -/
theorem everyBytePatternHasItsRow : Obligations.EveryBytePatternHasItsRow :=
  fun cfg => ⟨encode_decodeCodecByte cfg, encode_decodeWireDir cfg, encode_decodeWireFrame cfg⟩

/-- Settles O4: each word is decoded as the model runs. -/
theorem specWordsDecodeToTheirCommands : Obligations.SpecWordsDecodeToTheirCommands :=
  ⟨rfl, rfl, rfl, rfl, rfl, rfl, rfl, rfl, rfl, rfl, rfl⟩

/-- A word with a reserved OPSEL decodes to no command (30_encoding.md R85). -/
theorem decode_reserved {cfg : Config} {w : Nat} (h : fieldBits w 0 8 ∉ Opsel.all.map Opsel.code) :
    decode cfg w = .error (.reservedOpsel (fieldBits w 0 8)) := by
  simp only [decode, Opsel.ofCode_eq_none h]

end Sys2Proof

namespace Sys2Proof.Machine

/-! ### A reserved OPSEL -/

/-- Settles O5: the code is no OPSEL, so the fetch refuses the command. -/
theorem reservedOpselIsRefused : Obligations.ReservedOpselIsRefused := by
  intro s c rest code hcfg hp hw hcode
  have hf : fieldBits c.word 0 8 = code := fieldBits_eq (by simpa using hw)
  have hd : decode s.cfg c.word = .error (.reservedOpsel code) := hf ▸ decode_reserved (hf ▸ hcode)
  simp [step, fetch, hcfg, hp, hd]

/-! ### A codec byte decoded -/

theorem exec_codecDecode_encoder {x : Byte} (h6 : x.getLsbD 6 = true) (s : State) :
    exec (.codecDecode x) s = complete s (decodedEncoder (x.getLsbD 7)) := by
  rw [exec, execCodecDecode, if_pos h6]

theorem exec_codecDecode_illegal {x : Byte} (h6 : x.getLsbD 6 = false) (h : x.extractLsb' 0 5 = 31#5) (s : State) :
    exec (.codecDecode x) s = complete s decodedIllegal := by
  rw [exec, execCodecDecode, if_neg (ne_true_of_eq_false h6), if_pos h]

theorem exec_codecDecode_key {x : Byte} (h6 : x.getLsbD 6 = false) (h : x.extractLsb' 0 5 ≠ 31#5) (s : State) :
    exec (.codecDecode x) s = complete s (decodedKey (x.extractLsb' 0 5) (x.getLsbD 5)) := by
  rw [exec, execCodecDecode, if_neg (ne_true_of_eq_false h6), if_neg h]

/-- Settles O20: the three branches of CODEC_DECODE. -/
theorem decodeClassifiesTheByte : Obligations.DecodeClassifiesTheByte :=
  fun s _ => ⟨fun h6 => exec_codecDecode_encoder h6 s, fun h6 h => exec_codecDecode_illegal h6 h s,
    fun h6 h => exec_codecDecode_key h6 h s⟩

/-- Settles O21: by the class of the byte; a pattern's meaning is the branch of CODEC_DECODE that its bytes take. -/
theorem codecDecodeRunsTheBytesPattern : Obligations.CodecDecodeRunsTheBytesPattern := by
  refine fun s => ⟨fun x => ?_, fun _ => rfl, fun _ => rfl, fun _ _ => rfl, fun _ _ _ => rfl⟩
  obtain ⟨h6, h7⟩ | ⟨h6, h7⟩ | ⟨h6, h31⟩ | ⟨h6, h31⟩ := codecByte_cases x
  · rw [exec_codecDecode_encoder h6, h7, decodeCodecByte_encoderCw h6 h7]; rfl
  · rw [exec_codecDecode_encoder h6, h7, decodeCodecByte_encoderCcw h6 h7]; rfl
  · rw [exec_codecDecode_illegal h6 h31, decodeCodecByte_illegal h6 h31]; rfl
  · rw [exec_codecDecode_key h6 h31, decodeCodecByte_key h6 h31]; rfl

/-! ### The wire pattern at offset 0 -/

/-- A byte of the held bytes is the byte of RXB at its offset. -/
theorem getD_of_held {rx : RxUnit} {l : List Byte} {i : Nat} (h : rx.buf.take rx.cur = l) (hi : i < l.length) :
    rx.buf.getD i 0#8 = l.getD i 0#8 := by
  subst h
  rw [getD_take_lt (by rw [List.length_take] at hi; omega)]

/-- RX holds at most as many bytes as its cursor says. -/
theorem length_le_cur {rx : RxUnit} {l : List Byte} (h : rx.buf.take rx.cur = l) : l.length ≤ rx.cur := by
  rw [← h, List.length_take]
  omega

/-- A complete matrix frame at offset 0 is decoded (43_link_rx.md R195). -/
theorem interpret_matrix {cfg : Config} {rx : RxUnit} {b0 b1 b2 b3 : Byte} {rest : List Byte}
    (h : rx.buf.take rx.cur = 0xFF#8 :: b0 :: b1 :: b2 :: b3 :: rest) :
    interpret cfg rx.cur rx = matrixFrame cfg (b3 ++ b2 ++ b1 ++ b0) rx := by
  have hcur := length_le_cur h
  simp only [List.length_cons] at hcur
  obtain ⟨fuel, hfuel⟩ : ∃ fuel, rx.cur = fuel + 1 := ⟨rx.cur - 1, by omega⟩
  have hb (i : Nat) (hi : i < 5) : rx.buf.getD i 0#8 = (0xFF#8 :: b0 :: b1 :: b2 :: b3 :: rest).getD i 0#8 :=
    getD_of_held h (by simp; omega)
  rw [hfuel, interpret, hb 0 (by decide), hb 1 (by decide), hb 2 (by decide), hb 3 (by decide), hb 4 (by decide),
    if_pos (by rfl), if_neg (by omega)]
  rfl

/-- A complete encoder frame at offset 0 is decoded (43_link_rx.md R196). -/
theorem interpret_encoder {cfg : Config} {rx : RxUnit} {d : Byte} {rest : List Byte}
    (h : rx.buf.take rx.cur = 0xFE#8 :: d :: rest) : interpret cfg rx.cur rx = encoderFrame cfg d rx := by
  have hcur := length_le_cur h
  simp only [List.length_cons] at hcur
  obtain ⟨fuel, hfuel⟩ : ∃ fuel, rx.cur = fuel + 1 := ⟨rx.cur - 1, by omega⟩
  have h0 : rx.buf.getD 0 0#8 = 0xFE#8 := getD_of_held h (by simp)
  have h1 : rx.buf.getD 1 0#8 = d := getD_of_held h (by simp)
  rw [hfuel, interpret, h0, h1, if_neg (by decide), if_pos (by rfl), if_neg (by omega)]

/-- The retry of a resync begins at a tag, so its bound plays no part (43_link_rx.md R198). -/
theorem resync_fuel {cfg : Config} {rx : RxUnit} (hl : rx.cur ≤ rx.buf.length) {m n : Nat} (hm : rx.cur ≤ m + 1)
    (hn : rx.cur ≤ n + 1) : resync cfg (interpret cfg m) rx = resync cfg (interpret cfg n) rx := by
  unfold resync
  cases hk : findTag rx.buf 1 (rx.cur - 1) with
  | none => rfl
  | some k =>
    obtain ⟨h1, h2, -, -⟩ := findTag_some hk
    obtain ⟨m, rfl⟩ : ∃ f, m = f + 1 := ⟨m - 1, by omega⟩
    obtain ⟨n, rfl⟩ : ∃ f, n = f + 1 := ⟨n - 1, by omega⟩
    have htag : isTag ((rx.shifted k).buf.getD 0 0#8) = true := RxUnit.shifted_tag hk rfl hl
    exact interpret_aligned (rx := { rx.shifted k with cntResync := wrapAdd cfg.cntBits rx.cntResync 1 }) htag m n

/-- Any other byte at offset 0 starts a resync (43_link_rx.md R197). -/
theorem interpret_unrecognized {cfg : Config} {rx : RxUnit} {x : Byte} {rest : List Byte} (hl : rx.cur ≤ rx.buf.length)
    (h : rx.buf.take rx.cur = x :: rest) (hm : x ≠ 0xFF#8) (he : x ≠ 0xFE#8) :
    interpret cfg rx.cur rx = resync cfg (interpret cfg rx.cur) rx := by
  have hcur := length_le_cur h
  rw [List.length_cons] at hcur
  obtain ⟨fuel, hfuel⟩ : ∃ fuel, rx.cur = fuel + 1 := ⟨rx.cur - 1, by omega⟩
  obtain ⟨htag, -⟩ | ⟨-, hres⟩ := interpret_cases cfg rx fuel
  · rw [getD_of_take_eq_cons h, isTag_iff] at htag
    exact absurd htag (not_or.mpr ⟨hm, he⟩)
  · calc interpret cfg rx.cur rx = interpret cfg (fuel + 1) rx := by rw [hfuel]
      _ = resync cfg (interpret cfg fuel) rx := hres
      _ = resync cfg (interpret cfg rx.cur) rx := resync_fuel hl (by omega) (by omega)

/-- A direction pattern does what the frame of its direction byte does (43_link_rx.md R196). -/
theorem exec_decodeWireDir (d : Byte) (s : State) : exec (decodeWireDir d) s = exec (.wireEncoderFrame d) s := by
  obtain ⟨rfl, h⟩ | ⟨rfl, h⟩ | ⟨h0, h1, h⟩ := decodeWireDir_cases d
  · rfl
  · rfl
  · rw [h, exec, exec, execWireDirMalformed, execWireEncoderFrame, encoderFrame, if_neg h0, if_neg h1]

/-- RX_CYCLE by the owner, on a read that delivers bytes, interprets what RX holds after the read (43_link_rx.md R191). -/
theorem exec_rxCycle_read {s : State} {bytes : List Byte} (hctx : s.port.ctx = s.bind.rxOwner)
    (hs : s.port.source = .read bytes) (hne : bytes ≠ []) (hfit : bytes.length ≤ s.cfg.rxCap - s.rx.cur) :
    exec .rxCycle s = rxDone (s.withRx (s.rx.received s.cfg bytes))
      (interpret s.cfg (s.rx.received s.cfg bytes).cur (s.rx.received s.cfg bytes)) := by
  rw [exec, execRxCycle, whenIssuedBy_owner hctx, cycle_read hs hne hfit]
  rfl

/-- Settles O43: RX_CYCLE interprets what RX holds after the read, and the bytes at the front decide the branch. -/
theorem rxCycleRunsTheWirePattern : Obligations.RxCycleRunsTheWirePattern := by
  intro s bytes hinv hcap hctx hs hne hfit u
  obtain ⟨hlen, haligned, -⟩ := hinv
  have hcur := haligned.cur_le
  have hroom : s.rx.cur + bytes.length ≤ s.rx.buf.length := by omega
  have hu : u.rx.cur ≤ u.rx.buf.length := hroom.trans_eq (RxUnit.received_length s.cfg s.rx bytes).symm
  have hcycle : exec .rxCycle s = rxDone u (interpret s.cfg u.rx.cur u.rx) := exec_rxCycle_read hctx hs hne hfit
  refine ⟨rfl, (RxUnit.received_length s.cfg s.rx bytes).trans hlen, rfl, RxUnit.received_take hroom, rfl, rfl, rfl, rfl,
    rfl, fun b0 b1 b2 b3 rest h => ?_, fun d rest h => ?_, fun x rest h hm he => ?_⟩
  · rw [hcycle, interpret_matrix h]; rfl
  · have hframe : exec .rxCycle s = exec (.wireEncoderFrame d) u := by rw [hcycle, interpret_encoder h]; rfl
    exact ⟨hframe, hframe.trans (exec_decodeWireDir d u).symm⟩
  · rw [hcycle, interpret_unrecognized hu h hm he]; rfl

end Sys2Proof.Machine
end

section
/-! PROOFS. CODEC's encoders (40_codec.md R121, R122, R124). CODEC_DECODE is a left inverse of both, and that alone makes the
bytes they produce distinct. -/

namespace Sys2Proof.Machine

/-! ### The fields of the byte of a key event -/

theorem codecKeyByte_eq_append (idx : Byte) (pr : Bool) :
    codecKeyByte idx pr = 0#2 ++ BitVec.ofBool pr ++ idx.extractLsb' 0 5 := by
  refine BitVec.eq_of_getLsbD_eq fun i hi => ?_
  rw [BitVec.getLsbD_append, BitVec.getLsbD_append]
  by_cases h5 : i < 5
  · simp [codecKeyByte, h5, hi]
  · have hcases : i = 5 ∨ i = 6 ∨ i = 7 := by omega
    obtain rfl | rfl | rfl := hcases <;> simp [codecKeyByte]

/-- The marker bit of a key byte is clear. -/
theorem codecKeyByte_marker (idx : Byte) (pr : Bool) : (codecKeyByte idx pr).getLsbD 6 = false := by
  simp [codecKeyByte]

theorem codecKeyByte_pressed (idx : Byte) (pr : Bool) : (codecKeyByte idx pr).getLsbD 5 = pr := by
  simp [codecKeyByte]

theorem codecKeyByte_index (idx : Byte) (pr : Bool) : (codecKeyByte idx pr).extractLsb' 0 5 = idx.setWidth 5 := by
  rw [codecKeyByte_eq_append, BitVec.extractLsb'_append_eq_right, BitVec.setWidth_eq_extractLsb' (by decide)]

/-- An index up to 30 keeps its value in five bits. -/
theorem setWidth_index_toNat {idx : Byte} (h : idx.toNat ≤ 30) : (idx.setWidth 5).toNat = idx.toNat := by
  rw [BitVec.toNat_setWidth, Nat.mod_eq_of_lt (by omega)]

/-- An index up to 30 is not the reserved one. -/
theorem setWidth_index_ne_reserved {idx : Byte} (h : idx.toNat ≤ 30) : idx.setWidth 5 ≠ 31#5 := by
  intro h31
  have hnat : 31 = idx.toNat := by rw [← setWidth_index_toNat h, h31]; rfl
  omega

/-! ### The commands -/

theorem indexTooLarge_iff (idx : Byte) : indexTooLarge idx = true ↔ 31 ≤ idx.toNat := decide_eq_true_iff

theorem exec_codecEnckey_badIndex {idx : Byte} (h : 31 ≤ idx.toNat) (pr : Bool) (s : State) :
    exec (.codecEnckey idx pr) s = complete s ⟨.badIndex, .none⟩ := by
  rw [exec, execCodecEnckey, if_pos ((indexTooLarge_iff idx).mpr h)]

theorem exec_codecEnckey_ok {idx : Byte} (h : idx.toNat ≤ 30) (pr : Bool) (s : State) :
    exec (.codecEnckey idx pr) s = complete s ⟨.ok, .byte (codecKeyByte idx pr)⟩ := by
  rw [exec, execCodecEnckey, if_neg (by rw [indexTooLarge_iff]; omega)]

theorem exec_codecEncenc (cw : Bool) (s : State) :
    exec (.codecEncenc cw) s = complete s ⟨.ok, .byte (codecEncoderByte cw)⟩ := rfl

/-- CODEC_DECODE gives back the key event that CODEC_ENCKEY accepted. -/
theorem exec_codecDecode_codecKeyByte {idx : Byte} (h : idx.toNat ≤ 30) (pr : Bool) (s : State) :
    exec (.codecDecode (codecKeyByte idx pr)) s = complete s (decodedKey (idx.setWidth 5) pr) := by
  have hne : (codecKeyByte idx pr).extractLsb' 0 5 ≠ 31#5 := by
    rw [codecKeyByte_index]
    exact setWidth_index_ne_reserved h
  rw [exec_codecDecode_key (codecKeyByte_marker idx pr) hne, codecKeyByte_index, codecKeyByte_pressed]

/-- CODEC_DECODE gives back the encoder event. -/
theorem exec_codecDecode_codecEncoderByte (cw : Bool) (s : State) :
    exec (.codecDecode (codecEncoderByte cw)) s = complete s (decodedEncoder cw) := by
  cases cw <;> rfl

/-! ### What the encoders produce is distinct -/

theorem complete_inj {s : State} {r r' : Result} (h : complete s r = complete s r') : r = r' := by
  have hs : s.returns r = s.returns r' := (complete_next s _ r').mp h.symm
  exact Option.some.inj (congrArg State.result hs)

/-- Two commands that return the same byte return bytes that CODEC_DECODE decodes alike. -/
theorem decoded_eq_of_byte_eq {s : State} {x y : Byte} {r r' : Result}
    (h : complete s ⟨.ok, .byte x⟩ = complete s ⟨.ok, .byte y⟩) (hx : exec (.codecDecode x) s = complete s r)
    (hy : exec (.codecDecode y) s = complete s r') : r = r' := by
  cases complete_inj h
  exact complete_inj (hx.symm.trans hy)

theorem exec_codecEnckey_inj {s : State} {i j : Byte} {p q : Bool} (hi : i.toNat ≤ 30) (hj : j.toNat ≤ 30)
    (h : exec (.codecEnckey i p) s = exec (.codecEnckey j q) s) : i = j ∧ p = q := by
  rw [exec_codecEnckey_ok hi, exec_codecEnckey_ok hj] at h
  have hkey : decodedKey (i.setWidth 5) p = decodedKey (j.setWidth 5) q :=
    decoded_eq_of_byte_eq h (exec_codecDecode_codecKeyByte hi p s) (exec_codecDecode_codecKeyByte hj q s)
  obtain ⟨hidx, hpq⟩ : i.setWidth 5 = j.setWidth 5 ∧ p = q := by simpa [decodedKey] using hkey
  refine ⟨BitVec.eq_of_toNat_eq ?_, hpq⟩
  rw [← setWidth_index_toNat hi, hidx, setWidth_index_toNat hj]

theorem exec_codecEnckey_ne_codecEncenc {i : Byte} (hi : i.toNat ≤ 30) (p c : Bool) (s : State) :
    exec (.codecEnckey i p) s ≠ exec (.codecEncenc c) s := by
  intro h
  rw [exec_codecEnckey_ok hi, exec_codecEncenc] at h
  have hkind : decodedKey (i.setWidth 5) p = decodedEncoder c :=
    decoded_eq_of_byte_eq h (exec_codecDecode_codecKeyByte hi p s) (exec_codecDecode_codecEncoderByte c s)
  cases hkind

theorem exec_codecEncenc_inj {s : State} {c d : Bool} (h : exec (.codecEncenc c) s = exec (.codecEncenc d) s) : c = d := by
  have hdir : decodedEncoder c = decodedEncoder d :=
    decoded_eq_of_byte_eq h (exec_codecDecode_codecEncoderByte c s) (exec_codecDecode_codecEncoderByte d s)
  cases hdir
  rfl

/-! ### The obligations -/

/-- Settles O18: by the index check; below 31 the byte is the concatenation of its fields. -/
theorem enckeyPacksIndexAndPressed : Obligations.EnckeyPacksIndexAndPressed := by
  refine fun s idx pr => ⟨fun h => exec_codecEnckey_badIndex h pr s, fun h => ?_⟩
  rw [exec_codecEnckey_ok h, codecKeyByte_eq_append]
  rfl

/-- Settles O19: CODEC_ENCENC has one branch, and each direction its canonical byte. -/
theorem encencGivesTheCanonicalByte : Obligations.EncencGivesTheCanonicalByte :=
  fun s => ⟨exec_codecEncenc true s, exec_codecEncenc false s⟩

/-- Settles O22: the round trips are CODEC_DECODE on the two kinds of bytes; the distinctness follows from them. -/
theorem codecRoundTrip : Obligations.CodecRoundTrip :=
  ⟨fun s i p hi => ⟨codecKeyByte i p, exec_codecEnckey_ok hi p s, exec_codecDecode_codecKeyByte hi p s⟩,
    fun s c => ⟨codecEncoderByte c, exec_codecEncenc c s, exec_codecDecode_codecEncoderByte c s⟩,
    fun _ _ _ _ _ hi hj h => exec_codecEnckey_inj hi hj h,
    fun s _ p c _ hi => ⟨exec_codecEnckey_ne_codecEncenc hi p c s, exec_codecEncenc_inj⟩⟩

end Sys2Proof.Machine
end

section
/-! PROOFS. DB, the debounce filter (41_debounce.md R141 to R150). A DB command issued by the owner on a button in range
writes back what one function of the record gives, so each statement about one command is a case of `submitTo` or
`releaseFrom`; the statements about several commands follow the record from one command to the next. -/

namespace Sys2Proof.Machine

/-! ### A command by the owner -/

theorem exec_dbSubmit_owner {s : State} (hc : s.port.ctx = s.bind.dbOwner) (b : Byte) (st : Bool) (now : Nat) :
    exec (.dbSubmit b st now) s = onButton b s (fun d => submitTo s.cfg.window d st now) :=
  whenIssuedBy_owner hc _ _

theorem exec_dbRelease_owner {s : State} (hc : s.port.ctx = s.bind.dbOwner) (b : Byte) (now : Nat) :
    exec (.dbRelease b now) s = onButton b s (fun d => releaseFrom s.cfg.window d now) :=
  whenIssuedBy_owner hc _ _

theorem onButton_writes {s : State} {b : Byte} {f : DbRecord → DbRecord × Output} {d : DbRecord} {o : Output}
    (hb : b.toNat < s.cfg.numButtons) (hf : f (dbRecord s b) = (d, o)) :
    onButton b s f = complete (dbWrite s b d) ⟨.ok, o⟩ := by
  rw [onButton_inRange hb, hf]

/-- A command that leaves the record as it is writes nothing. -/
theorem onButton_keeps {s : State} {b : Byte} {f : DbRecord → DbRecord × Output} {o : Output}
    (hb : b.toNat < s.cfg.numButtons) (hlen : s.db.length = s.cfg.numButtons)
    (hf : f (dbRecord s b) = (dbRecord s b, o)) : onButton b s f = complete s ⟨.ok, o⟩ := by
  rw [onButton_writes hb hf, dbWrite_dbRecord (hlen ▸ hb)]

/-! ### One button's record only (R150) -/

theorem onButton_frame {s t : State} {b : Byte} {f : DbRecord → DbRecord × Output} (h : onButton b s f = .next t) :
    t = { s with db := t.db, result := t.result } ∧ t.db.length = s.db.length ∧
      ∀ k : Nat, k ≠ b.toNat → t.db[k]? = s.db[k]? := by
  obtain ⟨-, rfl⟩ | ⟨-, rfl⟩ := onButton_next h
  · exact ⟨rfl, rfl, fun _ _ => rfl⟩
  · exact ⟨rfl, List.length_set, fun k hk => List.getElem?_set_ne hk.symm⟩

/-- The result and the record written depend on the record alone. -/
theorem onButton_congr {s s' t : State} {b : Byte} {f : DbRecord → DbRecord × Output} (hcfg : s'.cfg = s.cfg)
    (hlen : s.db.length = s.cfg.numButtons) (hlen' : s'.db.length = s.cfg.numButtons)
    (hrec : dbRecord s' b = dbRecord s b) (h : onButton b s f = .next t) :
    ∃ t', onButton b s' f = .next t' ∧ t'.result = t.result ∧ dbRecord t' b = dbRecord t b := by
  obtain ⟨hb, rfl⟩ | ⟨hb, rfl⟩ := onButton_next h
  · exact ⟨_, onButton_outOfRange (hcfg ▸ hb) f, rfl, hrec⟩
  · refine ⟨_, onButton_writes (hcfg ▸ hb) (congrArg f hrec), rfl, ?_⟩
    rw [dbRecord_returns, dbRecord_returns, dbRecord_dbWrite _ (hlen' ▸ hb), dbRecord_dbWrite _ (hlen ▸ hb)]

/-- Both DB commands are the check of the owner, and then one function of the window and the record. -/
theorem exec_dbCommand {i : Instr} {b : Byte}
    (hi : (∃ st now, i = .dbSubmit b st now) ∨ (∃ now, i = .dbRelease b now)) :
    ∃ f : Nat → DbRecord → DbRecord × Output, ∀ s : State,
      exec i s = whenIssuedBy s.bind.dbOwner (.notOwner .db) s (onButton b s (f s.cfg.window)) := by
  obtain ⟨st, now, rfl⟩ | ⟨now, rfl⟩ := hi
  · exact ⟨fun w d => submitTo w d st now, fun _ => rfl⟩
  · exact ⟨fun w d => releaseFrom w d now, fun _ => rfl⟩

/-! ### What a verdict tells -/

/-- An answer ACCEPT comes with the record of an acceptance. -/
theorem submitTo_of_accept {w now : Nat} {d : DbRecord} {st x : Bool} (h : (submitTo w d st now).2 = .accept x) :
    (submitTo w d st now).1 = d.accepted now := by
  obtain e | ⟨-, e⟩ | ⟨-, e⟩ := submitTo_cases w d st now <;> rw [e] at h ⊢ <;> cases h

/-- An answer REJECT is given inside the window only. -/
theorem inside_of_submitTo_reject {w now : Nat} {d : DbRecord} {st : Bool} (h : (submitTo w d st now).2 = .reject) :
    d.laValid = true ∧ d.ts ≤ now ∧ now - d.ts < w := by
  have hla : d.laValid = true := by
    by_contra hla
    rw [submitTo_idle (Bool.eq_false_of_not_eq_true hla)] at h
    cases h
  have hts : d.ts ≤ now := by
    by_contra hts
    rw [submitTo_back hla (Nat.lt_of_not_le hts)] at h
    cases h
  refine ⟨hla, hts, ?_⟩
  by_contra hw
  rw [submitTo_elapsed hla hts (Nat.le_of_not_lt hw)] at h
  cases h

/-- A submission answered with status OK was on a button in range, and wrote the record its answer belongs to. -/
theorem exec_dbSubmit_ok {s u : State} {b : Byte} {x : Bool} {now : Nat} {o : Output}
    (hlen : s.db.length = s.cfg.numButtons) (h : exec (.dbSubmit b x now) s = .next u)
    (ho : u.result = some ⟨.ok, o⟩) :
    b.toNat < s.cfg.numButtons ∧ u.cfg = s.cfg ∧ u.db.length = s.db.length ∧
      (submitTo s.cfg.window (dbRecord s b) x now).2 = o ∧
      dbRecord u b = (submitTo s.cfg.window (dbRecord s b) x now).1 := by
  obtain ⟨-, rfl⟩ | ⟨hb, rfl⟩ := onButton_next (whenIssuedBy_next.mp h).2
  · cases ho
  · refine ⟨hb, rfl, List.length_set, ?_, dbRecord_dbWrite _ (hlen ▸ hb)⟩
    cases ho
    rfl

/-! ### A record followed to the next command (R149) -/

theorem exec_dbSubmit_answers {s : State} {b : Byte} (hc : s.port.ctx = s.bind.dbOwner)
    (hb : b.toNat < s.cfg.numButtons) (st : Bool) (now : Nat) :
    ∃ t, exec (.dbSubmit b st now) s = .next t ∧
      t.result = some ⟨.ok, (submitTo s.cfg.window (dbRecord s b) st now).2⟩ :=
  ⟨_, (exec_dbSubmit_owner hc b st now).trans (onButton_inRange hb _), rfl⟩

theorem exec_dbRelease_answers {s : State} {b : Byte} (hc : s.port.ctx = s.bind.dbOwner)
    (hb : b.toNat < s.cfg.numButtons) (now : Nat) :
    ∃ t, exec (.dbRelease b now) s = .next t ∧
      t.result = some ⟨.ok, (releaseFrom s.cfg.window (dbRecord s b) now).2⟩ :=
  ⟨_, (exec_dbRelease_owner hc b now).trans (onButton_inRange hb _), rfl⟩

theorem submitTo_accepted_inside {w t now : Nat} (h : t ≤ now) (hw : now < t + w) (d : DbRecord) (st : Bool) :
    submitTo w (d.accepted t) st now = ((d.accepted t).quarantined st now, .reject) :=
  submitTo_quarantine rfl h (Nat.sub_lt_left_of_lt_add h hw) nofun

theorem submitTo_accepted_elapsed {w t now : Nat} (hw : t + w ≤ now) (d : DbRecord) (st : Bool) :
    submitTo w (d.accepted t) st now = ((d.accepted t).accepted now, .accept st) :=
  submitTo_elapsed rfl (Nat.le_of_add_right_le hw) (Nat.le_sub_of_add_le' hw) st

theorem releaseFrom_quarantined_inside {w t now : Nat} (h : t ≤ now) (hw : now < t + w) (d : DbRecord) (st : Bool) :
    releaseFrom w (d.quarantined st t) now = (d.quarantined st t, .noVerdict) :=
  releaseFrom_inside rfl h (Nat.sub_lt_left_of_lt_add h hw)

theorem releaseFrom_quarantined_elapsed {w t now : Nat} (hw : t + w ≤ now) (d : DbRecord) (st : Bool) :
    releaseFrom w (d.quarantined st t) now = ((d.quarantined st t).released now, .accept st) :=
  releaseFrom_due rfl (.inr ⟨Nat.le_of_add_right_le hw, Nat.le_sub_of_add_le' hw⟩)

/-- Any number of releases that find nothing due answer NONE and change the result record alone. -/
theorem releasesNone_of_keeps {b : Byte} (times : List Nat) {v : State} (hc : v.port.ctx = v.bind.dbOwner)
    (hb : b.toNat < v.cfg.numButtons) (hlen : v.db.length = v.cfg.numButtons)
    (hkeep : ∀ n ∈ times, releaseFrom v.cfg.window (dbRecord v b) n = (dbRecord v b, .noVerdict)) :
    ∃ r, releasesNone b times v = some { v with result := r } := by
  induction times generalizing v with
  | nil => exact ⟨v.result, rfl⟩
  | cons n times ih =>
    obtain ⟨hfirst, hrest⟩ := List.forall_mem_cons.mp hkeep
    obtain ⟨r, hr⟩ := ih (v := v.returns ⟨.ok, .noVerdict⟩) hc hb hlen hrest
    refine ⟨r, ?_⟩
    rw [releasesNone, exec_dbRelease_owner hc, onButton_keeps hb hlen hfirst]
    exact hr

/-! ### The obligations -/

/-- Settles O23: the record is idle, so the submission is an acceptance. -/
theorem submitAcceptsTheFirstCandidate : Obligations.SubmitAcceptsTheFirstCandidate := by
  intro s b st now hc hb hla
  rw [exec_dbSubmit_owner hc, onButton_writes hb (submitTo_idle hla st now)]
  rfl

/-- Settles O24: NOW is before the anchor, so the submission is an acceptance. -/
theorem submitAcceptsABackwardClock : Obligations.SubmitAcceptsABackwardClock := by
  intro s b st now hc hb hla hts
  rw [exec_dbSubmit_owner hc, onButton_writes hb (submitTo_back hla hts st)]
  rfl

/-- Settles O26: the window has elapsed, so the submission is an acceptance. -/
theorem submitAcceptsAfterTheWindow : Obligations.SubmitAcceptsAfterTheWindow := by
  intro s b st now hc hb hla hts hw
  rw [exec_dbSubmit_owner hc, onButton_writes hb (submitTo_elapsed hla hts hw st)]
  rfl

/-- Settles O28: the range check comes before the record is read. -/
theorem buttonOutOfRangeWritesNothing : Obligations.ButtonOutOfRangeWritesNothing := by
  refine fun s b st now hc hb => ⟨?_, ?_⟩
  · rw [exec_dbSubmit_owner hc, onButton_outOfRange hb]
    rfl
  · rw [exec_dbRelease_owner hc, onButton_outOfRange hb]
    rfl

/-- Settles O25: a repeat of the quarantined state leaves the record as it is; any other candidate replaces the quarantine
of a record whose anchor is valid. -/
theorem submitRejectsInsideTheWindow : Obligations.SubmitRejectsInsideTheWindow := by
  refine fun s b st now hc hb hlen hla hts hw => ⟨fun hq => ?_, fun hq => ?_⟩
  · rw [exec_dbSubmit_owner hc, onButton_keeps hb hlen (submitTo_repeat hla hts hw hq)]
    rfl
  · rw [exec_dbSubmit_owner hc, onButton_writes hb (submitTo_quarantine hla hts hw hq), DbRecord.quarantined, hla]
    rfl

/-- Settles O27: by the range check and the branches of a release. -/
theorem releaseSurfacesTheQuarantine : Obligations.ReleaseSurfacesTheQuarantine := by
  refine fun s b now hc hlen => ⟨fun hb => ?_, fun hb hq => ?_, fun hb hq ht => ?_, fun hb hq hts hw => ?_⟩
  · exact (buttonOutOfRangeWritesNothing s b false now hc hb).2
  · rw [exec_dbRelease_owner hc, onButton_keeps hb hlen (releaseFrom_none hq now)]
    rfl
  · rw [exec_dbRelease_owner hc, onButton_writes hb (releaseFrom_due hq ht)]
    rfl
  · rw [exec_dbRelease_owner hc, onButton_keeps hb hlen (releaseFrom_inside hq hts hw)]
    rfl

/-- Settles O31: both commands are one function of the record behind the check of the owner. -/
theorem dbCommandsAreIsolatedToTheirButton : Obligations.DbCommandsAreIsolatedToTheirButton := by
  intro i b hi
  obtain ⟨f, hf⟩ := exec_dbCommand hi
  refine ⟨fun s t h => ?_, fun s s' t hcfg hbind hctx hlen hlen' hrec h => ?_, fun s hc => ?_⟩
  · rw [hf, whenIssuedBy_next] at h
    exact onButton_frame h.2
  · rw [hf, whenIssuedBy_next] at h
    obtain ⟨hc, h⟩ := h
    rw [hf, whenIssuedBy_owner (by rw [hctx, hbind, hc]), hcfg]
    exact onButton_congr hcfg hlen hlen' hrec h
  · rw [hf, whenIssuedBy_other hc]

/-- Settles O29: the first acceptance leaves a record with anchor t1 and no quarantine, and the second candidate meets that
record, inside the window or after it. -/
theorem twoCandidatesWithinTheWindowCollapse : Obligations.TwoCandidatesWithinTheWindowCollapse := by
  rintro s u v b x y t1 t2 ⟨hslen, -⟩ hexec haccept hrec hcfg hc ht
  obtain ⟨hb, hucfg, -, hout, hu⟩ := exec_dbSubmit_ok hslen hexec haccept
  rw [submitTo_of_accept hout] at hu
  have hvcfg : v.cfg = s.cfg := hcfg.trans hucfg
  have hsecond := exec_dbSubmit_answers hc (hvcfg ▸ hb) y t2
  rw [hvcfg, hrec, hu] at hsecond
  refine ⟨congrArg DbRecord.qValid hu, fun hw => ?_, fun hw => ?_⟩
  · rwa [submitTo_accepted_inside ht hw] at hsecond
  · rwa [submitTo_accepted_elapsed hw] at hsecond

/-- Settles O30: the submission leaves x quarantined with anchor `now`; the releases inside the window keep that record, and
the next one is due. -/
theorem quarantineSurfacesOnceTheWindowReElapses : Obligations.QuarantineSurfacesOnceTheWindowReElapses := by
  rintro s u v b x now later between ⟨hslen, -⟩ hexec hreject hnew hin hlate hrec hcfg hlen hc
  obtain ⟨hb, hucfg, hulen, hout, hu⟩ := exec_dbSubmit_ok hslen hexec hreject
  obtain ⟨hla, hts, hw⟩ := inside_of_submitTo_reject hout
  rw [submitTo_quarantine hla hts hw hnew] at hu
  have hv : dbRecord v b = (dbRecord s b).quarantined x now := hrec.trans hu
  have hvcfg : v.cfg = s.cfg := hcfg.trans hucfg
  have hvb : b.toNat < v.cfg.numButtons := hvcfg ▸ hb
  have hvlen : v.db.length = v.cfg.numButtons := by rw [hlen, hulen, hvcfg, hslen]
  obtain ⟨r, hnone⟩ : ∃ r, releasesNone b between v = some { v with result := r } := by
    refine releasesNone_of_keeps between hc hvb hvlen fun n hn => ?_
    rw [hvcfg, hv]
    exact releaseFrom_quarantined_inside (hin n hn).1 (hin n hn).2 _ x
  obtain ⟨z, hz, hzr⟩ := exec_dbRelease_answers (s := { v with result := r }) hc hvb later
  have hdue : (releaseFrom v.cfg.window (dbRecord v b) later).2 = .accept x := by
    rw [hvcfg, hv, releaseFrom_quarantined_elapsed hlate]
  exact ⟨_, z, hnone, hz, hzr.trans (congrArg (fun o => some (Result.mk .ok o)) hdue)⟩

end Sys2Proof.Machine
end

section
/-! PROOFS. TX, the link frame serializer (42_link_tx.md R171 to R179). A serialize command appends its whole frame or
writes nothing, and a pump moves pending bytes from the front onto the wire. So the bytes taken by SINK followed by the
pending bytes, one stream, only ever grow at the end, by whole frames. -/

namespace Sys2Proof.Machine

/-! ### A command by the owner -/

theorem exec_txMatrix_owner {s : State} (hc : s.port.ctx = s.bind.txOwner) (snap : BitVec 32) :
    exec (.txMatrix snap) s = queueFrame (matrixFrameBytes (cellsOf s.cfg snap)) s := whenIssuedBy_owner hc _ _

theorem exec_txEncoder_owner {s : State} (hc : s.port.ctx = s.bind.txOwner) (cw : Bool) :
    exec (.txEncoder cw) s = queueFrame (encoderFrameBytes cw) s := whenIssuedBy_owner hc _ _

theorem exec_txPump_owner {s : State} (hc : s.port.ctx = s.bind.txOwner) : exec .txPump s = pump s :=
  whenIssuedBy_owner hc _ _

/-! ### Queueing a frame -/

theorem txLacksRoom_iff (cfg : Config) (tx : TxUnit) (n : Nat) : txLacksRoom cfg tx n = true ↔ cfg.txCap - tx.cur < n :=
  decide_eq_true_iff

theorem queueFrame_full {s : State} {frame : List Byte} (h : s.cfg.txCap - s.tx.cur < frame.length) :
    queueFrame frame s = complete s ⟨.full, .none⟩ := by
  rw [queueFrame, if_pos ((txLacksRoom_iff _ _ _).mpr h)]

theorem queueFrame_room {s : State} {frame : List Byte} (h : frame.length ≤ s.cfg.txCap - s.tx.cur) :
    queueFrame frame s = complete (s.withTx (s.tx.append frame)) ⟨.ok, .none⟩ := by
  rw [queueFrame, if_neg (by rw [txLacksRoom_iff]; omega)]

/-- The cursor lies in TXB (10_state.md R30). -/
theorem TxInv.cur_le_length {s : State} (hs : TxInv s) : s.tx.cur ≤ s.tx.buf.length := by
  obtain ⟨hlen, hcur⟩ := hs
  omega

/-- As many bytes as there is space left fit in TXB past the cursor. -/
theorem TxInv.cur_add_le_length {s : State} {n : Nat} (hs : TxInv s) (h : n ≤ s.cfg.txCap - s.tx.cur) :
    s.tx.cur + n ≤ s.tx.buf.length := by
  obtain ⟨hlen, hcur⟩ := hs
  omega

/-- The whole frame or nothing, for any frame (42_link_tx.md R171). -/
theorem queueFrame_queues_whole_or_nothing {s : State} (hs : TxInv s) (frame : List Byte) :
    (s.cfg.txCap - s.tx.cur < frame.length → queueFrame frame s = complete s ⟨.full, .none⟩) ∧
    (frame.length ≤ s.cfg.txCap - s.tx.cur → ∃ tx, queueFrame frame s = complete (s.withTx tx) ⟨.ok, .none⟩ ∧
      tx.cur = s.tx.cur + frame.length ∧ tx.buf.length = s.tx.buf.length ∧
      tx.buf.take tx.cur = s.tx.buf.take s.tx.cur ++ frame ∧ tx.buf.drop tx.cur = s.tx.buf.drop tx.cur) :=
  ⟨queueFrame_full, fun h => ⟨s.tx.append frame, queueFrame_room h, rfl, s.tx.append_length frame,
    TxUnit.append_take (hs.cur_add_le_length h), s.tx.append_drop frame⟩⟩

/-! ### Pumping -/

theorem pump_empty {s : State} (h : s.tx.cur = 0) : pump s = complete s ⟨.ok, .pumped 0 true⟩ := by
  rw [pump, if_pos h]

theorem pump_written {s : State} {n : Nat} (h : 0 < s.tx.cur) (hs : s.port.sink = .written n) (hn : n ≤ s.tx.cur) :
    pump s = complete ((s.withTx (s.tx.sent n)).sends (s.tx.buf.take n)) ⟨.ok, .pumped n true⟩ := by
  simp only [pump, if_neg h.ne', hs, if_pos hn, memRead, List.drop_zero, sinkHealthy]

theorem pump_overrun {s : State} {n : Nat} (h : 0 < s.tx.cur) (hs : s.port.sink = .written n) (hn : s.tx.cur < n) :
    pump s = .refused .sinkContract := by
  simp only [pump, if_neg h.ne', hs, if_neg hn.not_ge]

theorem pump_wouldBlock {s : State} (h : 0 < s.tx.cur) (hs : s.port.sink = .wouldBlock) :
    pump s = complete s ⟨.wouldBlock, .pumped 0 true⟩ := by
  simp only [pump, if_neg h.ne', hs, sinkHealthy]

theorem pump_error {s : State} (h : 0 < s.tx.cur) (hs : s.port.sink = .error) :
    pump s = complete s ⟨.sinkError, .pumped 0 false⟩ := by
  simp only [pump, if_neg h.ne', hs, sinkHealthy]

/-! ### The transmitted stream (R179) -/

/-- The bytes SINK has taken, followed by the pending bytes. -/
def txStream (s : State) : List Byte := s.wire ++ txPending s

theorem frameBy_txMatrix (cfg : Config) (snap : BitVec 32) (r : Result) :
    frameBy cfg (.txMatrix snap, r) = if r.status = .ok then matrixFrameBytes (cellsOf cfg snap) else [] := by
  obtain ⟨status, output⟩ := r
  cases status <;> rfl

theorem frameBy_txEncoder (cfg : Config) (cw : Bool) (r : Result) :
    frameBy cfg (.txEncoder cw, r) = if r.status = .ok then encoderFrameBytes cw else [] := by
  obtain ⟨status, output⟩ := r
  cases status <;> rfl

/-- Another unit's command queues no frame. -/
theorem frameBy_of_unitOf_ne {i : Instr} (hu : unitOf i ≠ .tx) (cfg : Config) (r : Result) : frameBy cfg (i, r) = [] := by
  cases i with
  | txMatrix snap => exact absurd rfl hu
  | txEncoder cw => exact absurd rfl hu
  | _ => rfl

/-- A serialize command puts its frame at the end of the stream when its status is OK, and otherwise leaves it. -/
theorem queueFrame_txStream {s t : State} {frame : List Byte} {r : Result} (hs : TxInv s)
    (h : queueFrame frame s = .next t) (hr : t.result = some r) :
    txStream t = txStream s ++ if r.status = .ok then frame else [] := by
  obtain ⟨-, rfl⟩ | ⟨hroom, rfl⟩ := queueFrame_next h <;> obtain rfl := Option.some.inj hr
  · exact (List.append_nil _).symm
  · have hpending : txPending (s.withTx (s.tx.append frame)) = txPending s ++ frame :=
      TxUnit.append_take (hs.cur_add_le_length hroom)
    show s.wire ++ txPending (s.withTx (s.tx.append frame)) = txStream s ++ frame
    rw [hpending, txStream, List.append_assoc]

/-- A pump moves bytes within the stream: what goes onto the wire leaves the front of the pending bytes. -/
theorem pump_txStream {s t : State} (hs : TxInv s) (h : pump s = .next t) : txStream t = txStream s := by
  obtain ⟨-, rfl⟩ | ⟨n, -, -, hn, rfl⟩ | ⟨-, -, rfl⟩ | ⟨-, -, rfl⟩ := pump_next h
  · rfl
  · have hsent : s.tx.buf.take n = (txPending s).take n := by rw [txPending, List.take_take, Nat.min_eq_left hn]
    have hrest : txPending (s.withTx (s.tx.sent n)) = (txPending s).drop n := TxUnit.sent_take hn hs.cur_le_length
    calc (s.wire ++ s.tx.buf.take n) ++ txPending (s.withTx (s.tx.sent n))
        = s.wire ++ ((txPending s).take n ++ (txPending s).drop n) := by rw [hsent, hrest, List.append_assoc]
      _ = txStream s := by rw [List.take_append_drop, txStream]
  · rfl
  · rfl

theorem exec_tx_txStream {i : Instr} {s t : State} {r : Result} (hu : unitOf i = .tx) (hs : TxInv s)
    (h : exec i s = .next t) (hr : t.result = some r) : txStream t = txStream s ++ frameBy s.cfg (i, r) := by
  cases i with
  | txMatrix snap =>
    rw [frameBy_txMatrix]
    exact queueFrame_txStream hs (whenIssuedBy_next.mp h).2 hr
  | txEncoder cw =>
    rw [frameBy_txEncoder]
    exact queueFrame_txStream hs (whenIssuedBy_next.mp h).2 hr
  | txPump => exact (pump_txStream hs (whenIssuedBy_next.mp h).2).trans (List.append_nil _).symm
  | _ => simp [unitOf] at hu

/-- Every instruction adds to the stream the frame it queued: those of TX by what they do, and those of
another unit queue none and leave TX and the wire (00_scope.md R2). -/
theorem exec_txStream {i : Instr} {s t : State} {r : Result} (hs : TxInv s) (h : exec i s = .next t)
    (hr : t.result = some r) : txStream t = txStream s ++ frameBy s.cfg (i, r) := by
  by_cases hu : unitOf i = .tx
  · exact exec_tx_txStream hu hs h hr
  · obtain ⟨-, -, -, -, -, ftx, -, -⟩ := instructionsTouchOnlyTheirUnit i s t h
    obtain ⟨htx, hwire⟩ := ftx hu
    simp only [frameBy_of_unitOf_ne hu, List.append_nil, txStream, txPending, htx, hwire]

/-- The step of a run does what its command does; the inputs it takes are no part of the stream. -/
theorem step_txStream {s t : State} {c : Command} {rest : List Stimulus} {i : Instr} {r : Result} (hs : Inv s)
    (hp : s.pending = .command c :: rest) (hd : decode s.cfg c.word = .ok i) (h : step s = .next t)
    (hr : t.result = some r) : txStream t = txStream s ++ frameBy s.cfg (i, r) := by
  rw [step_command hs.cfgOk hp hd] at h
  exact exec_txStream (s := s.accepts c rest) (inv_accepts hs c rest).tx h hr

/-- A run of commands keeps the configuration. -/
theorem CommandRun.cfg_eq {start s : State} {log : List (Instr × Result)} (hrun : CommandRun start log s) :
    s.cfg = start.cfg := by
  induction hrun with
  | none => rfl
  | command _ _ _ hstep _ ih => exact (noStepChangesConfigurationOrBinding _ _ hstep).1.trans ih

/-- Over a run, the stream grows by the frames of the log. -/
theorem CommandRun.txStream_eq {start s : State} {log : List (Instr × Result)} (hrun : CommandRun start log s)
    (hs : Inv start) : txStream s = txStream start ++ log.flatMap (frameBy start.cfg) := by
  induction hrun with
  | none => exact (List.append_nil _).symm
  | @command log s t c rest i r hrun hp hd hstep hr ih =>
    have hone : txStream t = txStream s ++ frameBy start.cfg (i, r) :=
      hrun.cfg_eq ▸ step_txStream (hrun.inv hs) hp hd hstep hr
    calc txStream t
        = (txStream start ++ log.flatMap (frameBy start.cfg)) ++ frameBy start.cfg (i, r) := by rw [hone, ih]
      _ = txStream start ++ (log ++ [(i, r)]).flatMap (frameBy start.cfg) := by
          rw [List.flatMap_append, List.flatMap_singleton, List.append_assoc]

/-! ### The obligations -/

/-- Settles O35: by induction on the run; each command adds its own frame, or nothing, at the end of the stream. -/
theorem noByteOfTheStreamIsLost : Obligations.NoByteOfTheStreamIsLost :=
  fun _ _ _ hs hrun => hrun.txStream_eq hs

/-- Settles O32: the snapshot with the given bits is `cellsOf`, and its frame is queued as any frame is. -/
theorem txMatrixQueuesTheWholeFrame : Obligations.TxMatrixQueuesTheWholeFrame := by
  intro s snap f hs hc hf
  rw [exec_txMatrix_owner hc, ← eq_cellsOf hf]
  exact queueFrame_queues_whole_or_nothing hs (matrixFrameBytes f)

/-- Settles O33: the frame is queued as any frame is. -/
theorem txEncoderQueuesTheWholeFrame : Obligations.TxEncoderQueuesTheWholeFrame := by
  intro s cw hs hc
  rw [exec_txEncoder_owner hc]
  exact queueFrame_queues_whole_or_nothing hs (encoderFrameBytes cw)

/-- Settles O34: by whether bytes are pending, and then by SINK's answer. -/
theorem pumpSendsAPrefixOnce : Obligations.PumpSendsAPrefixOnce := by
  intro s hs hc
  rw [exec_txPump_owner hc]
  refine ⟨pump_empty, fun h0 => ⟨fun n hsink hn => ⟨s.tx.sent n, pump_written h0 hsink hn, rfl, s.tx.sent_length n,
    TxUnit.sent_take hn hs.cur_le_length⟩, fun n => pump_overrun h0, pump_wouldBlock h0,
    pump_error h0⟩⟩

end Sys2Proof.Machine
end

section
/-! PROOFS. RX, the link frame receiver (43_link_rx.md R191 to R200). RX_CYCLE by the owner interprets what RX holds after
the read. The frame statements follow from the branch that the bytes at the front decide, and the stream statements from the
list-level account, which every interpretation matches. -/

namespace Sys2Proof.Machine

/-! ### A read that delivers nothing, or too much -/

theorem exec_rxCycle_owner {s : State} (hc : s.port.ctx = s.bind.rxOwner) : exec .rxCycle s = cycle s :=
  whenIssuedBy_owner hc _ _

theorem cycle_noData {s : State} (h : s.port.source = .wouldBlock ∨ s.port.source = .error ∨ s.port.source = .read []) :
    cycle s = complete s ⟨.ok, .nothing⟩ := by
  obtain h | h | h := h <;> rw [cycle, h]

theorem cycle_overrun {s : State} {bytes : List Byte} (hs : s.port.source = .read bytes)
    (h : s.cfg.rxCap - s.rx.cur < bytes.length) : cycle s = .refused .sourceContract := by
  cases bytes with
  | nil => exact absurd h (Nat.not_lt_zero _)
  | cons x xs =>
    rw [cycle, hs]
    exact if_neg (Nat.not_le.mpr h)

/-! ### A read of bytes that fit -/

/-- Bytes that fit the space offered lie inside RXB. -/
theorem RxInv.cur_add_le_length {s : State} {bytes : List Byte} (hinv : RxInv s) (hne : bytes ≠ [])
    (hfit : bytes.length ≤ s.cfg.rxCap - s.rx.cur) : s.rx.cur + bytes.length ≤ s.rx.buf.length := by
  obtain ⟨hlen, -⟩ := hinv
  have hpos := List.length_pos_of_ne_nil hne
  omega

/-- The new bytes follow the held ones (43_link_rx.md R192). -/
theorem RxInv.held_received {s : State} {bytes : List Byte} (hinv : RxInv s) (hne : bytes ≠ [])
    (hfit : bytes.length ≤ s.cfg.rxCap - s.rx.cur) :
    (s.rx.received s.cfg bytes).buf.take (s.rx.received s.cfg bytes).cur = rxHeld s ++ bytes :=
  RxUnit.received_take (hinv.cur_add_le_length hne hfit)

theorem RxInv.received_length {s : State} (hinv : RxInv s) (bytes : List Byte) :
    (s.rx.received s.cfg bytes).buf.length = s.cfg.rxCap := by
  obtain ⟨hlen, -⟩ := hinv
  rw [RxUnit.received_length, hlen]

/-- A cycle ends with RX and the output of its interpretation, and the rest of the state as before. -/
theorem rxDone_eq {s : State} {r : RxUnit × Output} {o : Output} (h : r.2 = o) :
    rxDone s r = .next { s with rx := r.1, result := some ⟨.ok, o⟩ } := by
  rw [← h]
  rfl

/-! ### One frame at offset 0 -/

/-- An incomplete frame waits, whatever the bound on the retries (43_link_rx.md R194). -/
theorem interpret_waits {cfg : Config} {rx : RxUnit}
    (h : (rx.buf.getD 0 0#8 = 0xFF#8 ∧ rx.cur < 5) ∨ (rx.buf.getD 0 0#8 = 0xFE#8 ∧ rx.cur < 2)) (fuel : Nat) :
    interpret cfg fuel rx = (rx, .nothing) := by
  cases fuel with
  | zero => rfl
  | succ fuel =>
    obtain ⟨htag, hcur⟩ | ⟨htag, hcur⟩ := h
    · rw [interpret, htag, if_pos (by rfl), if_pos hcur]
    · rw [interpret, htag, if_neg (by decide), if_pos (by rfl), if_pos hcur]

/-- The first byte held is the first of RXB. -/
theorem getD_of_held_head? {buf : List Byte} {n : Nat} {x : Byte} (h : (buf.take n).head? = some x) :
    buf.getD 0 0#8 = x := by
  obtain ⟨xs, hxs⟩ := List.head?_eq_some_iff.mp h
  exact getD_of_take_eq_cons hxs

/-! ### The list-level account -/

/-- Bytes that are no tag are dropped up to the first tag, as one resync (43_link_rx.md R197). -/
theorem readStream_junk {cfg : Config} {remote : Snapshot} {junk tail : List Byte} (hne : junk ≠ [])
    (hjunk : ∀ x ∈ junk, x ≠ 0xFF#8 ∧ x ≠ 0xFE#8)
    (htail : tail = [] ∨ tail.head? = some 0xFF#8 ∨ tail.head? = some 0xFE#8) :
    readStream cfg remote (junk ++ tail) = { readAligned cfg remote tail with resyncs := 1 } := by
  cases junk with
  | nil => exact absurd rfl hne
  | cons x xs =>
    obtain ⟨⟨hm, he⟩, hxs⟩ := List.forall_mem_cons.mp hjunk
    have hx : ¬isTag x = true := by rw [isTag_iff, not_or]; exact ⟨hm, he⟩
    rw [List.cons_append, readStream, if_neg hx, dropWhile_junk xs tail hxs htail]

/-- A counter within its width grows by n, as `RxMatches` gives it. -/
theorem grown_eq_mod {bits a : Nat} (h : a < 2 ^ bits) (n : Nat) :
    (if n = 0 then a else wrapAdd bits a n) = (a + n) % 2 ^ bits := by
  split
  · subst n
    exact (Nat.mod_eq_of_lt h).symm
  · rfl

/-! ### The change list -/

/-- What is below one of the first n elements of an ascending list is among them. -/
theorem mem_take_of_lt {l : List Nat} (hl : l.Pairwise (· < ·)) {n i j : Nat} (hi : i ∈ l.take n) (hj : j ∈ l)
    (hlt : j < i) : j ∈ l.take n := by
  rw [← List.take_append_drop n l] at hl hj
  obtain ⟨-, -, hcross⟩ := List.pairwise_append.mp hl
  obtain hj | hj := List.mem_append.mp hj
  · exact hj
  · exact absurd hlt (hcross i hi j hj).asymm

theorem mem_differingCells {cfg : Config} {new old : Snapshot} {i : Nat} :
    i ∈ differingCells cfg new old ↔ i < cfg.numCells ∧ new.getLsbD i ≠ old.getLsbD i := by
  simp [differingCells]

theorem differingCells_ascending (cfg : Config) (new old : Snapshot) : (differingCells cfg new old).Pairwise (· < ·) :=
  List.pairwise_lt_range.filter _

/-! ### The obligations -/

/-- Settles O37: SOURCE's answer alone decides the branch of the cycle. -/
theorem rxWithoutDataWritesNothing : Obligations.RxWithoutDataWritesNothing := by
  intro s hctx
  rw [exec_rxCycle_owner hctx]
  exact ⟨cycle_noData, fun _ => cycle_overrun⟩

/-- Settles O38: the tag at offset 0 and the cursor after the read make RX wait, and nothing but the read is left. -/
theorem rxWaitsForAWholeFrame : Obligations.RxWaitsForAWholeFrame := by
  intro s bytes hinv hctx hs hne hfit hshort
  have hheld := hinv.held_received hne hfit
  rw [← hheld] at hshort
  refine ⟨_, hinv.received_length bytes, hheld, ?_⟩
  rw [exec_rxCycle_read hctx hs hne hfit,
    interpret_waits (hshort.imp (And.imp_left getD_of_held_head?) (And.imp_left getD_of_held_head?))]
  rfl

/-- Settles O39: the bytes at the front are a matrix frame, and the snapshot with the given bits is `cellsOf`. -/
theorem rxDecodesAMatrixFrame : Obligations.RxDecodesAMatrixFrame := by
  intro s bytes rest b0 b1 b2 b3 new hinv hctx hs hne hfit hframe hnew
  refine ⟨_, hinv.received_length bytes, ?_⟩
  rw [exec_rxCycle_read hctx hs hne hfit, interpret_matrix ((hinv.held_received hne hfit).trans hframe), eq_cellsOf hnew]
  rfl

/-- Settles O40: the bytes at the front are an encoder frame, and its direction byte decides. -/
theorem rxDecodesAnEncoderFrame : Obligations.RxDecodesAnEncoderFrame := by
  intro s bytes rest d hinv hctx hs hne hfit hframe
  refine ⟨_, hinv.received_length bytes, ?_⟩
  rw [exec_rxCycle_read hctx hs hne hfit, interpret_encoder ((hinv.held_received hne hfit).trans hframe)]
  obtain ⟨rfl, e⟩ | ⟨rfl, e⟩ | ⟨h0, h1, e⟩ := encoderFrame_cases s.cfg d (s.rx.received s.cfg bytes)
  · rw [e]; rfl
  · rw [e]; rfl
  · rw [e, if_neg (not_or.mpr ⟨h0, h1⟩), if_neg h0, if_neg h1]; rfl

/-- Settles O42: the interpretation after the read matches the account of the held bytes and the new ones, and the
counters are within their widths. -/
theorem rxCycleRefinesTheStreamReading : Obligations.RxCycleRefinesTheStreamReading := by
  intro s bytes hinv _ hctx hs hne hfit r
  have hcur : (s.rx.received s.cfg bytes).cur ≤ (s.rx.received s.cfg bytes).buf.length :=
    (hinv.cur_add_le_length hne hfit).trans_eq (RxUnit.received_length s.cfg s.rx bytes).symm
  have hpos : 0 < (s.rx.received s.cfg bytes).cur := Nat.add_pos_right _ (List.length_pos_of_ne_nil hne)
  have hmatch := interpret_matches s.cfg _ hcur hpos _ le_rfl
  rw [hinv.held_received hne hfit] at hmatch
  obtain ⟨hout, hlen, hkept, hheld, hremote, hbytes, hreads, hmalformed, hresync⟩ := hmatch
  have ⟨_, _, _, _, _, hwm, hwr⟩ := hinv
  refine ⟨_, (exec_rxCycle_read hctx hs hne hfit).trans (rxDone_eq hout), hlen.trans (hinv.received_length bytes), hkept, hheld, hremote, hbytes, hreads,
    hmalformed.trans (grown_eq_mod hwm _), hresync.trans (grown_eq_mod hwr _)⟩

/-- Settles O41: the account of a stream that begins with junk is that of its tail, with one resync. -/
theorem rxResyncsToTheFirstTag : Obligations.RxResyncsToTheFirstTag := by
  intro s bytes junk tail hinv hcap hctx hs hne hfit hsplit hjne hjunk htail
  have h := rxCycleRefinesTheStreamReading s bytes hinv hcap hctx hs hne hfit
  rw [hsplit, readStream_junk hjne hjunk htail] at h
  exact h

/-- Settles O45: the resync matches the account of the bytes after the first, whose tag is not looked at. -/
theorem unrecognizedTagScansForATag : Obligations.UnrecognizedTagScansForATag := by
  intro s tag junk tail hcur hheld hjunk htail
  have hpos : 0 < s.rx.cur := by
    have hle := length_le_cur hheld
    rw [List.cons_append, List.length_cons] at hle
    omega
  have hmatch := resync_matches s.cfg s.rx hcur hpos s.rx.cur (Nat.le_succ _)
  rw [show s.rx.buf.take s.rx.cur = tag :: (junk ++ tail) from hheld, List.tail_cons,
    dropWhile_junk junk tail hjunk htail] at hmatch
  obtain ⟨hout, hlen, hkept, hheld', hremote, hbytes, hreads, hmalformed, hresync⟩ := hmatch
  exact ⟨_, rxDone_eq hout, hkept, hheld', hremote, hlen, hbytes, hreads, hmalformed, hresync⟩

/-- Settles O46: the cells reported are the first of the differing cells, which ascend. -/
theorem changeListIsTheFirstDifferingCells : Obligations.ChangeListIsTheFirstDifferingCells := by
  intro cfg new old
  have hasc := differingCells_ascending cfg new old
  refine ⟨(differingCells cfg new old).take cfg.maxChanges, ?_, hasc.take, fun i hi => ?_, rfl⟩
  · rw [List.length_take, min_comm, List.countP_eq_length_filter]
    rfl
  · obtain ⟨hlt, hne⟩ := mem_differingCells.mp (List.mem_of_mem_take hi)
    exact ⟨hlt, hne, fun j hji hj => mem_take_of_lt hasc hi (mem_differingCells.mpr ⟨hji.trans hlt, hj⟩) hji⟩

/-- Settles O44: each pattern has one branch, and the snapshot with the given bits is `cellsOf`. -/
theorem wireFramesUpdateOnlyRx : Obligations.WireFramesUpdateOnlyRx := by
  refine fun s => ⟨fun f new hnew => ?_, fun d => (exec_decodeWireDir d s).symm, rfl, rfl, fun _ => rfl⟩
  rw [eq_cellsOf hnew]
  rfl

end Sys2Proof.Machine
end

section
/-! PROOFS. Q, the queue (44_spsc_queue.md R221 to R227). A command issued by the port's own context has one outcome for
each comparison of its view with the ghost counters, and each statement about one command reads that outcome off. The
statements on sequences follow the queue from one push or pop with the current view to the next. -/

namespace Sys2Proof.Machine

/-! ### A command by its port's context -/

theorem exec_qPush_producer {s : State} (hc : s.port.ctx = s.bind.producer) (v : Nat) : exec (.qPush v) s = push v s :=
  whenIssuedBy_owner hc _ _

theorem exec_qPop_consumer {s : State} (hc : s.port.ctx = s.bind.consumer) : exec .qPop s = pop s :=
  whenIssuedBy_owner hc _ _

theorem exec_qPeek_consumer {s : State} (hc : s.port.ctx = s.bind.consumer) : exec .qPeek s = peek s :=
  whenIssuedBy_owner hc _ _

theorem exec_qAvail_consumer {s : State} (hc : s.port.ctx = s.bind.consumer) : exec .qAvail s = avail s :=
  whenIssuedBy_owner hc _ _

/-! ### The view -/

/-- A view in its range, drawn or, where none is written, current, is what the port observes (20_memory.md R57). -/
theorem observe_eq {seen latest k : Nat} {view : Option Nat} (hview : view = some k ∨ (view = none ∧ k = latest))
    (h1 : seen ≤ k) (h2 : k ≤ latest) : observe seen latest view = k := by
  obtain rfl | ⟨rfl, rfl⟩ := hview
  · exact observe_drawn h1 h2
  · rfl

theorem headObserved_current {s : State} (hview : s.port.view = none) : headObserved s = s.q.hc := by
  rw [headObserved, hview, observe_current]

theorem tailObserved_current {s : State} (hview : s.port.view = none) : tailObserved s = s.q.tc := by
  rw [tailObserved, hview, observe_current]

/-! ### What a command does, by its view -/

section
variable {s : State} (hs : QInv s) (hN : 2 ≤ s.cfg.qSlots)
include hs hN

theorem push_of_full (v : Nat) (h : s.q.tc - headObserved s = s.cfg.qSlots - 1) :
    push v s = .next ((s.withQ (s.q.sawHead (headObserved s))).returns ⟨.full, .none⟩) :=
  have ⟨h1, h2⟩ := headObserved_bounds hs
  if_pos ((qLooksFull_iff hs hN h1 h2).mpr h)

theorem push_of_room (v : Nat) (h : s.q.tc - headObserved s ≠ s.cfg.qSlots - 1) :
    push v s = .next ((s.withQ ((s.q.sawHead (headObserved s)).pushed s.cfg v)).returns ⟨.ok, .none⟩) :=
  have ⟨h1, h2⟩ := headObserved_bounds hs
  if_neg (mt (qLooksFull_iff hs hN h1 h2).mp h)

/-- The consumer's port sees no element exactly when its view is HC (44_spsc_queue.md R222). -/
theorem looksEmpty_iff_tailObserved : qLooksEmpty s.cfg s.q (tailObserved s) = true ↔ tailObserved s = s.q.hc :=
  have ⟨h1, h2⟩ := tailObserved_bounds hs
  qLooksEmpty_iff hs hN h1 h2

theorem pop_of_empty (h : tailObserved s = s.q.hc) :
    pop s = .next ((s.withQ (s.q.sawTail (tailObserved s))).returns ⟨.empty, .none⟩) :=
  if_pos ((looksEmpty_iff_tailObserved hs hN).mpr h)

theorem pop_of_element (h : tailObserved s ≠ s.q.hc) :
    pop s = .next ((s.withQ ((s.q.sawTail (tailObserved s)).popped s.cfg)).returns ⟨.ok, .value s.q.front⟩) :=
  if_neg (mt (looksEmpty_iff_tailObserved hs hN).mp h)

theorem peek_of_empty (h : tailObserved s = s.q.hc) :
    peek s = .next ((s.withQ (s.q.sawTail (tailObserved s))).returns ⟨.empty, .none⟩) :=
  if_pos ((looksEmpty_iff_tailObserved hs hN).mpr h)

theorem peek_of_element (h : tailObserved s ≠ s.q.hc) :
    peek s = .next ((s.withQ (s.q.sawTail (tailObserved s))).returns ⟨.ok, .value s.q.front⟩) :=
  if_neg (mt (looksEmpty_iff_tailObserved hs hN).mp h)

theorem avail_eq : avail s = .next (s.returns ⟨.ok, .count (tailObserved s - s.q.hc)⟩) := by
  obtain ⟨h1, h2⟩ := tailObserved_bounds hs
  obtain ⟨-, -, hhead, -, i1, i2, -, i4⟩ := hs
  rw [avail, hhead, count_eq (by omega) (by omega)]
  rfl

end

/-! ### How many elements are queued -/

/-- One slot stays empty (44_spsc_queue.md R225). -/
theorem queued_length_le {s : State} (hs : QInv s) : (queued s).length ≤ s.cfg.qSlots - 1 := by
  obtain ⟨-, -, -, -, _, _, _, _⟩ := hs
  rw [queued_length]
  omega

theorem queued_ne_nil_iff {s : State} : queued s ≠ [] ↔ s.q.hc < s.q.tc := by
  rw [← List.length_pos_iff, queued_length]
  omega

theorem queued_eq_nil_iff {s : State} (hs : QInv s) : queued s = [] ↔ s.q.tc = s.q.hc := by
  have ⟨_, _, _, _, _, h1, h2, _⟩ := hs
  rw [← not_iff_not, ← Ne, queued_ne_nil_iff]
  omega

/-- A drained queue looks empty in every view (44_spsc_queue.md R226). -/
theorem looksEmpty_of_drained {s : State} (hs : QInv s) (hN : 2 ≤ s.cfg.qSlots) (h : queued s = []) :
    qLooksEmpty s.cfg s.q (tailObserved s) ≠ false :=
  fun hnot => queued_ne_nil_iff.mpr (element_of_not_looksEmpty hs hN hnot) h

/-! ### The element a peek saw -/

/-- A port that has seen an element pops the front, whatever its view: a view never goes back (20_memory.md R57). -/
theorem pop_of_seen {s : State} (hs : QInv s) (hN : 2 ≤ s.cfg.qSlots) (hseen : s.q.hc < s.q.cSeen) :
    ∃ t, pop s = .next t ∧ t.result = some ⟨.ok, .value s.q.front⟩ :=
  have ⟨h1, _⟩ := tailObserved_bounds hs
  ⟨_, pop_of_element hs hN (by omega), rfl⟩

/-- After a peek that found an element, the consumer's port has seen one; the peek returned the front. -/
theorem peek_value {s t : State} {v : Nat} (hs : QInv s) (hN : 2 ≤ s.cfg.qSlots) (h : peek s = .next t)
    (hr : t.result = some ⟨.ok, .value v⟩) : v = t.q.front ∧ t.q.hc < t.q.cSeen := by
  obtain ⟨-, rfl⟩ | ⟨hlooks, rfl⟩ := peek_next h
  · simp at hr
  · have hne : tailObserved s ≠ s.q.hc := by simp [← looksEmpty_iff_tailObserved hs hN, hlooks]
    have ⟨h1, _⟩ := tailObserved_bounds hs
    have ⟨_, _, _, _, _, hle, _, _⟩ := hs
    have hv : s.q.front = v := by simpa using hr
    exact ⟨hv.symm, lt_of_le_of_ne (hle.trans h1) hne.symm⟩

/-! ### Pushes and pops with the current view -/

/-- The next command comes from the producer, with the current view. -/
def State.asProducer (s : State) : State := s.withPort { s.port with ctx := s.bind.producer, view := none }

/-- The next command comes from the consumer, with the current view. -/
def State.asConsumer (s : State) : State := s.withPort { s.port with ctx := s.bind.consumer, view := none }

/-- The state after a push by the producer, with the current view, that found room. -/
def State.pushedNow (s : State) (v : Nat) : State :=
  (s.asProducer.withQ ((s.q.sawHead s.q.hc).pushed s.cfg v)).returns ⟨.ok, .none⟩

/-- The state after a pop by the consumer, with the current view, that found an element. -/
def State.poppedNow (s : State) : State :=
  (s.asConsumer.withQ ((s.q.sawTail s.q.tc).popped s.cfg)).returns ⟨.ok, .value s.q.front⟩

section
variable {s : State} (hs : QInv s)
include hs

theorem exec_qPush_full (hN : 2 ≤ s.cfg.qSlots) (v : Nat) (hfull : (queued s).length = s.cfg.qSlots - 1) :
    exec (.qPush v) s.asProducer = .next ((s.asProducer.withQ (s.q.sawHead s.q.hc)).returns ⟨.full, .none⟩) := by
  rw [queued_length] at hfull
  exact (exec_qPush_producer rfl v).trans (push_of_full (s := s.asProducer) hs hN v hfull)

theorem exec_qPush_pushedNow (hN : 2 ≤ s.cfg.qSlots) (v : Nat) (hroom : (queued s).length < s.cfg.qSlots - 1) :
    exec (.qPush v) s.asProducer = .next (s.pushedNow v) := by
  rw [queued_length] at hroom
  exact (exec_qPush_producer rfl v).trans (push_of_room (s := s.asProducer) hs hN v hroom.ne)

theorem queued_pushedNow (hN : 2 ≤ s.cfg.qSlots) (v : Nat) (hroom : (queued s).length < s.cfg.qSlots - 1) :
    queued (s.pushedNow v) = queued s ++ [v] := by
  rw [queued_length] at hroom
  exact queued_push hs hN hroom rfl rfl

theorem qInv_pushedNow {v : Nat} (hv : v < 2 ^ s.cfg.qWidth) (hroom : (queued s).length < s.cfg.qSlots - 1) :
    QInv (s.pushedNow v) := by
  have ⟨_, _, _, _, hseen, _, _, _⟩ := hs
  rw [queued_length] at hroom
  have hnext : s.q.tc + 1 ≤ s.q.hc + (s.cfg.qSlots - 1) := by omega
  exact qInv_pushed (qInv_sawHead hs hseen le_rfl) hv hnext

theorem exec_qPop_poppedNow (hN : 2 ≤ s.cfg.qSlots) (hne : queued s ≠ []) :
    exec .qPop s.asConsumer = .next s.poppedNow :=
  (exec_qPop_consumer rfl).trans (pop_of_element (s := s.asConsumer) hs hN (queued_ne_nil_iff.mp hne).ne')

theorem queued_poppedNow (hne : queued s ≠ []) : queued s = s.q.front :: queued s.poppedNow :=
  queued_pop hs (queued_ne_nil_iff.mp hne) rfl rfl

theorem qInv_poppedNow (hne : queued s ≠ []) : QInv s.poppedNow :=
  have ⟨_, _, _, _, _, _, hseen, _⟩ := hs
  qInv_popped (qInv_sawTail hs hseen le_rfl) (queued_ne_nil_iff.mp hne)

end

/-! ### Sequences of pushes and pops -/

theorem pushAll_cons {s : State} (hs : QInv s) (hN : 2 ≤ s.cfg.qSlots) (v : Nat) (vs : List Nat)
    (hroom : (queued s).length < s.cfg.qSlots - 1) : pushAll (v :: vs) s = pushAll vs (s.pushedNow v) := by
  have hpush : exec (.qPush v) (s.withPort _) = _ := exec_qPush_pushedNow hs hN v hroom
  rw [pushAll, hpush]
  exact if_pos rfl

/-- While there is room for them all, pushes with the current view append their values in order. -/
theorem pushAll_appends {s : State} (vs : List Nat) (hs : QInv s) (hN : 2 ≤ s.cfg.qSlots)
    (hroom : (queued s).length + vs.length ≤ s.cfg.qSlots - 1) (hv : ∀ x ∈ vs, x < 2 ^ s.cfg.qWidth) :
    ∃ t, pushAll vs s = some t ∧ t.cfg = s.cfg ∧ QInv t ∧ queued t = queued s ++ vs := by
  induction vs generalizing s with
  | nil => exact ⟨s, rfl, rfl, hs, (List.append_nil _).symm⟩
  | cons v vs ih =>
    rw [List.length_cons] at hroom
    obtain ⟨hv, hvs⟩ := List.forall_mem_cons.mp hv
    have hone : (queued s).length < s.cfg.qSlots - 1 := by omega
    have hq := queued_pushedNow hs hN v hone
    have hrest : (queued (s.pushedNow v)).length + vs.length ≤ s.cfg.qSlots - 1 := by simp [hq]; omega
    obtain ⟨t, hall, hcfg, ht, hqt⟩ := ih (qInv_pushedNow hs hv hone) hN hrest hvs
    exact ⟨t, (pushAll_cons hs hN v vs hone).trans hall, hcfg, ht, by simp [hqt, hq]⟩

/-- On an empty queue a push and a pop give the value back and leave the queue empty. -/
theorem pushPopAll_cons {s : State} (hs : QInv s) (hN : 2 ≤ s.cfg.qSlots) (hempty : queued s = []) (v : Nat)
    (vs : List Nat) (hv : v < 2 ^ s.cfg.qWidth) :
    QInv (s.pushedNow v).poppedNow ∧ queued (s.pushedNow v).poppedNow = [] ∧
    pushPopAll (v :: vs) s = (pushPopAll vs (s.pushedNow v).poppedNow).map (fun p => (v :: p.1, p.2)) := by
  have hroom : (queued s).length < s.cfg.qSlots - 1 := by rw [hempty, List.length_nil]; omega
  have ht := qInv_pushedNow hs hv hroom
  have hone : queued (s.pushedNow v) = [v] := by rw [queued_pushedNow hs hN v hroom, hempty, List.nil_append]
  have hne : queued (s.pushedNow v) ≠ [] := by simp [hone]
  obtain ⟨hfront, hnil⟩ : v = (s.pushedNow v).q.front ∧ [] = queued (s.pushedNow v).poppedNow := by
    simpa [hone] using queued_poppedNow ht hne
  refine ⟨qInv_poppedNow ht hne, hnil.symm, ?_⟩
  have hpush : exec (.qPush v) (s.withPort _) = _ := exec_qPush_pushedNow hs hN v hroom
  have hpop : exec .qPop ((s.pushedNow v).withPort _) = _ := exec_qPop_poppedNow ht hN hne
  rw [pushPopAll, hpush]
  simp only [hpop]
  change Option.map (fun p : List Nat × State => ((s.pushedNow v).q.front :: p.1, p.2)) _ = _
  rw [← hfront]

/-! ### The obligations -/

/-- Settles O49: the view is what the producer's port observes, and it decides the branch of the push. -/
theorem pushStoresAtTheTail : Obligations.PushStoresAtTheTail := by
  intro s v h hs hN hctx hview h1 h2
  obtain rfl : headObserved s = h := observe_eq hview h1 h2
  rw [exec_qPush_producer hctx]
  exact ⟨push_of_full hs hN v, push_of_room hs hN v⟩

/-- Settles O50: the view is what the consumer's port observes, and it decides the branch of the pop. -/
theorem popTakesTheHead : Obligations.PopTakesTheHead := by
  intro s k hs hN hctx hview h1 h2
  obtain rfl : tailObserved s = k := observe_eq hview h1 h2
  rw [exec_qPop_consumer hctx]
  exact ⟨pop_of_empty hs hN, pop_of_element hs hN⟩

/-- Settles O51: the view is what the consumer's port observes, and it decides the branch of the peek. -/
theorem peekLeavesTheHead : Obligations.PeekLeavesTheHead := by
  intro s k hs hN hctx hview h1 h2
  obtain rfl : tailObserved s = k := observe_eq hview h1 h2
  rw [exec_qPeek_consumer hctx]
  exact ⟨peek_of_empty hs hN, peek_of_element hs hN⟩

/-- Settles O52: the remainder the command computes is the difference of the counters, for they are less than N apart. -/
theorem availCountsWithoutWriting : Obligations.AvailCountsWithoutWriting := by
  intro s k hs hN hctx hview h1 h2
  obtain rfl : tailObserved s = k := observe_eq hview h1 h2
  rw [exec_qAvail_consumer hctx, ← queued_length]
  refine ⟨avail_eq hs hN, Nat.sub_le_sub_right h1 _, ?_, queued_length_le hs⟩
  rw [queued_length]
  exact Nat.sub_le_sub_right h2 _

/-- Settles O53: the current view is the other port's counter, so the comparison is one of the number queued. -/
theorem currentViewsAreExact : Obligations.CurrentViewsAreExact := by
  intro s v hs hN hview
  have hhead := headObserved_current hview
  have htail := tailObserved_current hview
  refine ⟨fun hctx => ?_, fun hctx => ?_⟩
  · rw [exec_qPush_producer hctx]
    have hlen := queued_length s
    by_cases hfull : (queued s).length = s.cfg.qSlots - 1
    · exact ⟨_, push_of_full hs hN v (by rw [hhead, ← hlen, hfull]), by simp [hfull]⟩
    · have hroom : (queued s).length < s.cfg.qSlots - 1 := lt_of_le_of_ne (queued_length_le hs) hfull
      exact ⟨_, push_of_room hs hN v (by rwa [hhead, ← hlen]), by simp [hfull, hroom]⟩
  · rw [exec_qPop_consumer hctx, exec_qPeek_consumer hctx, exec_qAvail_consumer hctx, queued_eq_nil_iff hs, queued_length,
      ← htail]
    by_cases hempty : tailObserved s = s.q.hc
    · exact ⟨⟨_, pop_of_empty hs hN hempty, by simp [hempty]⟩, ⟨_, peek_of_empty hs hN hempty, by simp [hempty]⟩,
        _, avail_eq hs hN, rfl⟩
    · exact ⟨⟨_, pop_of_element hs hN hempty, by simp [hempty]⟩, ⟨_, peek_of_element hs hN hempty, by simp [hempty]⟩,
        _, avail_eq hs hN, rfl⟩

/-- Settles O54: a view may be old but not ahead, so a push that does not look full has room and a pop or peek that does not
look empty has an element. -/
theorem queueHoldsWhatWasPushedAndNotPopped : Obligations.QueueHoldsWhatWasPushedAndNotPopped := by
  refine fun s t hs hN => ⟨fun v h => ?_, fun h => ?_, fun h => ?_, fun hdrained h => ?_⟩
  · obtain ⟨-, rfl⟩ | ⟨hlooks, rfl⟩ := push_next (whenIssuedBy_next.mp h).2
    · exact .inr ⟨rfl, rfl⟩
    · exact .inl ⟨rfl, queued_push hs hN (room_of_not_looksFull hs hN hlooks) rfl rfl⟩
  · obtain ⟨-, rfl⟩ | ⟨hlooks, rfl⟩ := pop_next (whenIssuedBy_next.mp h).2
    · exact .inr ⟨rfl, rfl⟩
    · exact .inl ⟨_, rfl, queued_pop hs (element_of_not_looksEmpty hs hN hlooks) rfl rfl⟩
  · obtain ⟨-, rfl⟩ | ⟨hlooks, rfl⟩ := peek_next (whenIssuedBy_next.mp h).2
    · exact ⟨rfl, .inr rfl⟩
    · exact ⟨rfl, .inl ⟨_, rfl, queued_head hs (element_of_not_looksEmpty hs hN hlooks)⟩⟩
  · have hlooks := looksEmpty_of_drained hs hN hdrained
    obtain h | h := h
    · obtain ⟨-, rfl⟩ | ⟨hnot, -⟩ := pop_next (whenIssuedBy_next.mp h).2
      · rfl
      · exact absurd hnot hlooks
    · obtain ⟨-, rfl⟩ | ⟨hnot, -⟩ := peek_next (whenIssuedBy_next.mp h).2
      · rfl
      · exact absurd hnot hlooks

/-- Settles O55: after the peek the consumer's port has seen an element, and the pop takes the same front. -/
theorem popAfterPeekReturnsThePeekedValue : Obligations.PopAfterPeekReturnsThePeekedValue := by
  intro s t u v hs hN hpeek hr hq hcfg hctx
  obtain ⟨hcfgt, -⟩ := instructionsTouchOnlyTheirUnit .qPeek s t hpeek
  have hpeek := (whenIssuedBy_next.mp hpeek).2
  obtain ⟨rfl, hseen⟩ := peek_value hs hN hpeek hr
  have hu : QInv u := (qInv_congr hcfg hq).mpr (peek_keeps_chain hs hpeek).1
  rw [exec_qPop_consumer hctx, ← hq]
  exact pop_of_seen hu (by rwa [hcfg, hcfgt]) (by rwa [hq])

/-- Settles O58: the pushes append their values as long as there is room for all, and then none is left. -/
theorem capacityIsOneLessThanTheSlots : Obligations.CapacityIsOneLessThanTheSlots := by
  refine fun s vs v hs hN => ⟨queued_length_le hs, fun hempty hlen hvs => ?_⟩
  obtain ⟨t, hall, hcfg, ht, hq⟩ := pushAll_appends vs hs hN (by simp [hempty, hlen]) hvs
  rw [hempty, List.nil_append] at hq
  exact ⟨t, _, hall, hq, exec_qPush_full ht (hcfg ▸ hN) v (by rw [hq, hlen, hcfg]), rfl, hq⟩

/-- Settles O59: by induction on the sequence; each push and pop moves both cursors one slot. -/
theorem wrapAroundReproducesTheSequence : Obligations.WrapAroundReproducesTheSequence := by
  intro s vs hs hN hempty hvs
  induction vs generalizing s with
  | nil =>
    have ⟨_, _, hhead, htail, _⟩ := hs
    exact ⟨s, rfl, hempty, by simp [htail], by simp [hhead]⟩
  | cons v vs ih =>
    obtain ⟨hv, hvs⟩ := List.forall_mem_cons.mp hvs
    obtain ⟨hu, hnil, hall⟩ := pushPopAll_cons hs hN hempty v vs hv
    obtain ⟨t, hrest, hq, htail, hhead⟩ := ih _ hu hN hnil hvs
    have hcyclic (c : Nat) : ((c + 1) % s.cfg.qSlots + vs.length) % s.cfg.qSlots =
        (c + (v :: vs).length) % s.cfg.qSlots := by
      rw [Nat.mod_add_mod, List.length_cons, Nat.add_assoc, Nat.add_comm 1]
    exact ⟨t, by rw [hall, hrest]; rfl, hq, htail.trans (hcyclic s.q.tail), hhead.trans (hcyclic s.q.head)⟩

end Sys2Proof.Machine
end

section
/-! PROOFS. Completion, power-up and idle steps (60_exceptions.md R255, R256, R268). What a command does once its context has
been checked completes from every state; only a pump and a cycle need their agent's contract for it. -/

namespace Sys2Proof.Machine

/-! ### Completing with one of the listed statuses -/

/-- The outcome is a next state that holds a result record with a status of the list. -/
def CompletesWith (l : List Status) (o : StepOutcome) : Prop :=
  ∃ t r, o = .next t ∧ t.result = some r ∧ r.status ∈ l

theorem completesWith_complete (s : State) {r : Result} {l : List Status} (h : r.status ∈ l) :
    CompletesWith l (complete s r) :=
  complete_answers s h

theorem CompletesWith.ite {l : List Status} {o o' : StepOutcome} (p : Prop) [Decidable p] (h : CompletesWith l o)
    (h' : CompletesWith l o') : CompletesWith l (if p then o else o') := by
  split
  · exact h
  · exact h'

/-- The context check lets a permitted command through (60_exceptions.md R257). -/
theorem CompletesWith.whenIssuedBy {l : List Status} {owner : Ctx} {r : Refusal} {s : State} {k : StepOutcome}
    (hc : s.port.ctx = owner) (h : CompletesWith l k) : CompletesWith l (whenIssuedBy owner r s k) := by
  rwa [whenIssuedBy_owner hc]

/-! ### What each unit's commands do completes -/

theorem exec_codec_completes {i : Instr} (hu : unitOf i = .codec) (s : State) :
    CompletesWith (statusesOf i) (exec i s) := by
  obtain ⟨r, hr, -, he⟩ := exec_codec hu
  exact ⟨_, r, he s, rfl, hr⟩

theorem onButton_completes (b : Byte) (s : State) (f : DbRecord → DbRecord × Output) :
    CompletesWith [.ok, .range] (onButton b s f) :=
  .ite _ (completesWith_complete _ (by decide)) (completesWith_complete _ (.head _))

theorem queueFrame_completes (frame : List Byte) (s : State) : CompletesWith [.ok, .full] (queueFrame frame s) :=
  .ite _ (completesWith_complete _ (by decide)) (completesWith_complete _ (.head _))

/-- With nothing pending SINK is not asked; otherwise each answer within its contract ends the pump. -/
theorem pump_completes {s : State} (h : SinkKeepsContract s) :
    CompletesWith [.ok, .wouldBlock, .sinkError] (pump s) := by
  obtain h0 | hpos := Nat.eq_zero_or_pos s.tx.cur
  · rw [pump_empty h0]
    exact completesWith_complete _ (.head _)
  · cases hs : s.port.sink with
    | written n =>
      rw [pump_written hpos hs (h n hs)]
      exact completesWith_complete _ (.head _)
    | wouldBlock =>
      rw [pump_wouldBlock hpos hs]
      exact completesWith_complete _ (by decide)
    | error =>
      rw [pump_error hpos hs]
      exact completesWith_complete _ (by decide)

theorem rxDone_completes (s : State) (r : RxUnit × Output) : CompletesWith [.ok] (rxDone s r) :=
  completesWith_complete _ (.head _)

/-- A read that delivers nothing ends the cycle, and one within SOURCE's contract is interpreted. -/
theorem cycle_completes {s : State} (h : SourceKeepsContract s) : CompletesWith [.ok] (cycle s) := by
  by_cases hread : ∃ bytes, s.port.source = .read bytes ∧ bytes ≠ []
  · obtain ⟨bytes, hs, hne⟩ := hread
    rw [cycle_read hs hne (h bytes hs)]
    exact rxDone_completes _ _
  · have hnone : s.port.source = .wouldBlock ∨ s.port.source = .error ∨ s.port.source = .read [] := by
      cases hs : s.port.source with
      | read bytes => exact .inr (.inr (by simpa [hs] using hread))
      | wouldBlock => exact .inl rfl
      | error => exact .inr (.inl rfl)
    rw [cycle_noData hnone]
    exact completesWith_complete _ (.head _)

theorem push_completes (v : Nat) (s : State) : CompletesWith [.ok, .full] (push v s) :=
  .ite _ (completesWith_complete _ (by decide)) (completesWith_complete _ (.head _))

theorem pop_completes (s : State) : CompletesWith [.ok, .empty] (pop s) :=
  .ite _ (completesWith_complete _ (by decide)) (completesWith_complete _ (.head _))

theorem peek_completes (s : State) : CompletesWith [.ok, .empty] (peek s) :=
  .ite _ (completesWith_complete _ (by decide)) (completesWith_complete _ (.head _))

theorem avail_completes (s : State) : CompletesWith [.ok] (avail s) :=
  completesWith_complete _ (.head _)

/-! ### Every instruction completes -/

/-- An owned command passes the check of its context and then completes; a data pattern has no check to pass. -/
theorem exec_completes {i : Instr} {s : State} (hc : MayIssue s.bind s.port.ctx i)
    (hsink : i = .txPump → SinkKeepsContract s) (hsource : i = .rxCycle → SourceKeepsContract s) :
    CompletesWith (statusesOf i) (exec i s) := by
  cases i with
  | codecEnckey idx pr => exact exec_codec_completes rfl s
  | codecEncenc cw => exact exec_codec_completes rfl s
  | codecDecode x => exact exec_codec_completes rfl s
  | codecEncoderCw low => exact exec_codec_completes rfl s
  | codecEncoderCcw low => exact exec_codec_completes rfl s
  | codecIllegal bit7 bit5 => exact exec_codec_completes rfl s
  | codecKey bit7 pr idx => exact exec_codec_completes rfl s
  | dbSubmit b st now => exact .whenIssuedBy hc (onButton_completes b s _)
  | dbRelease b now => exact .whenIssuedBy hc (onButton_completes b s _)
  | txMatrix snap => exact .whenIssuedBy hc (queueFrame_completes _ s)
  | txEncoder cw => exact .whenIssuedBy hc (queueFrame_completes _ s)
  | txPump => exact .whenIssuedBy hc (pump_completes (hsink rfl))
  | rxCycle => exact .whenIssuedBy hc (cycle_completes (hsource rfl))
  | wireMatrixFrame f => exact rxDone_completes s _
  | wireEncoderFrame d => exact rxDone_completes s _
  | wireUnrecognizedTag tag => exact rxDone_completes s _
  | wireDirCw => exact rxDone_completes s _
  | wireDirCcw => exact rxDone_completes s _
  | wireDirMalformed d => exact rxDone_completes s _
  | qPush v => exact .whenIssuedBy hc (push_completes v s)
  | qPop => exact .whenIssuedBy hc (pop_completes s)
  | qPeek => exact .whenIssuedBy hc (peek_completes s)
  | qAvail => exact .whenIssuedBy hc (avail_completes s)

/-! ### The obligations -/

/-- Settles O15: completing with a listed status is what the statement asks. -/
theorem everyPermittedInstructionCompletes : Obligations.EveryPermittedInstructionCompletes :=
  fun _ _ hc hsink hsource => exec_completes hc hsink hsource

/-- Settles O7: the fetch finds nothing to run. -/
theorem stepWithoutStimulusChangesNothing : Obligations.StepWithoutStimulusChangesNothing := by
  intro s hc hp
  simp [step, fetch, hc, hp]

/-- Power-up at the front is done next (60_exceptions.md R268). -/
theorem step_powerUp {s : State} {rest : List Stimulus} (hc : configOk s.cfg = true)
    (hp : s.pending = .powerUp :: rest) : step s = .next (powerUp (s.continues rest)) := by
  simp [step, fetch, hc, hp]

/-- Settles O60: power-up leaves the units of a block constructed with the same configuration and binding, and those hold the
reset values. -/
theorem powerUpConstructsEveryUnit : Obligations.PowerUpConstructsEveryUnit :=
  fun s _ hc hp => ⟨dbConstructed s.cfg, TxUnit.constructed s.cfg, RxUnit.constructed s.cfg, QUnit.constructed s.cfg,
    step_powerUp hc hp, resetLeavesTheSpecsValues s.cfg s.bind⟩

end Sys2Proof.Machine
end

section
/-! PROOFS. The construction of one unit (70_reset_and_hazards.md R281, R283). A construction at the front of the stimuli is
the whole step; Q alone has a condition, that neither of its ports is in use. -/

namespace Sys2Proof.Machine

variable {ports : PortUse}

/-- A construction at the front is done next. -/
theorem step_construct {s : State} {u : UnitId} {rest : List Stimulus} (hc : configOk s.cfg = true)
    (hp : s.pending = .construct u ports :: rest) : step s = construct u ports (s.continues rest) := by
  simp [step, fetch, hc, hp]

/-- Q is constructed while neither of its ports is in use. -/
theorem construct_q_unused (hprod : ports.producer = false) (hcons : ports.consumer = false) (s : State) :
    construct .q ports s = .next (s.withQ (QUnit.constructed s.cfg)) :=
  if_neg (by simp [hprod, hcons])

/-- Q is not constructed again while either port is in use (60_exceptions.md R256). -/
theorem construct_q_inUse (h : ports.producer = true ∨ ports.consumer = true) (s : State) :
    construct .q ports s = .refused .qInUse :=
  if_pos (ports.either_iff.mpr h)

/-- Settles O10: by the unit. The step is the construction of that unit, and what it puts in place holds the values that the
construction of the whole block leaves there. -/
theorem constructionTouchesOneUnit : Obligations.ConstructionTouchesOneUnit := by
  intro s u ports rest hc hp
  have hstep : step s = construct u ports (s.continues rest) := step_construct hc hp
  obtain ⟨hlen, hidle, htcur, htbuf, hrcur, hrbuf, hrem, hbytes, hreads, hmal, hres, hq⟩ :=
    resetLeavesTheSpecsValues s.cfg s.bind
  refine ⟨?codec, ?db, ?tx, ?rx, ?q, ?qInUse⟩
  case codec => rintro rfl; exact hstep
  case db => rintro rfl; exact ⟨_, hstep, hlen, hidle⟩
  case tx => rintro rfl; exact ⟨_, hstep, htcur, htbuf⟩
  case rx => rintro rfl; exact ⟨_, hstep, hrcur, hrbuf, hrem, hbytes, hreads, hmal, hres⟩
  case q => rintro rfl hprod hcons; exact ⟨_, hstep.trans (construct_q_unused hprod hcons _), hq⟩
  case qInUse => rintro rfl huse; exact hstep.trans (construct_q_inUse huse _)

end Sys2Proof.Machine
end
